-- ==== Sys2Proof/Word.lean ====
section
/-!
DEFINITION. The two kinds of value VAEG handles: the 32-bit command word and the Num.
-/

namespace Sys2Proof

/-- A command word `CMD` (30_encoding.md R70, R71). -/
abbrev Word := BitVec 32

/-- Every time, frequency, gain and sample value: an exact rational (00_scope.md R9, R10: the normative
reference semantics takes ℚ; the spec's own decision D7; log 7). -/
abbrev Num := ℚ

end Sys2Proof
end

