-- ==== Sys2Proof/Config.lean ====
section
/-!
DEFINITION. What is fixed for one VAEG: its structural parameters and envelope configuration (00_scope.md R8), their
legal ranges (60_exceptions.md R182, RF7), the reasons a command or a configuration is refused, the open encoding NUM_ENC
of the data ports, and the host's parameters.
-/

namespace Sys2Proof

/-- The reasons RF1 to RF8 of 60_exceptions.md R182. Each says that the spec gives the command (or the reset
configuration) no meaning, so the model stops there: safe, since no claim about what follows can be proved. -/
inductive RefusalReason where
  /-- RF1. Raised by decode: `CMD[31:28]` is a reserved opcode (30_encoding.md R77). Safe. -/
  | reservedOpcode
  /-- RF2. Raised by decode: `CMD[27:8]` is not zero (30_encoding.md R74). Safe. -/
  | reservedBits
  /-- RF3. Raised by decode of NOTE_ON, NOTE_OFF, ADVANCE: `CMD[7:0]` is not zero (30_encoding.md R75). Safe. -/
  | slotNotZero
  /-- RF4. Raised by decode of SAMPLE, READ_VOICE, and by the two commands themselves: the slot index is not below
  `N` (20_memory.md R51). Safe. -/
  | slotRange
  /-- RF5. Raised by NOTE_ON, NOTE_OFF: the frequency is not above zero (40_voice_pool.md R107). Safe. -/
  | badFrequency
  /-- RF6. Raised by ADVANCE: the time step is not above zero (40_voice_pool.md R113). Safe. -/
  | badDelta
  /-- RF7. Raised by reset: `N` or a configuration value is outside its range (70_reset_and_hazards.md R211). Safe. -/
  | badConfig
  /-- RF8. Raised by NOTE_ON, NOTE_OFF, ADVANCE, SAMPLE: the pattern on `DIN` encodes no Num (30_encoding.md R76).
  Never arises when every `DIN` is a Num, as in the ℚ reference. Safe. -/
  | badNum
deriving DecidableEq, Repr

/-- The configuration inputs `CFG_IN` of the reset (10_state.md R35, 70_reset_and_hazards.md R210). -/
structure CfgIn where
  attack  : Num
  decay   : Num
  sustain : Num
  release : Num
deriving DecidableEq, Repr

/-- The parameters VAEG itself holds, fixed at reset (00_scope.md R8): the capacity `N`, the four envelope values and
`P_CASCADE`. The whole table of R8 is `VaegParams`. -/
structure Params where
  n       : Nat
  cfg     : CfgIn
  cascade : Bool
deriving DecidableEq, Repr

/-- The largest capacity: one 8-bit `SLOT` field reaches 256 slots (00_scope.md R8, the spec's decision D6). -/
abbrev maxSlots : Nat := 256

/-- The legal ranges of the four configuration registers (10_state.md R26). -/
abbrev CfgIn.legal (c : CfgIn) : Prop :=
  0 ≤ c.attack ∧ 0 ≤ c.decay ∧ 0 ≤ c.sustain ∧ c.sustain ≤ 1 ∧ 0 ≤ c.release

/-- What reset requires of its parameters (70_reset_and_hazards.md R211; outside it RF7). -/
abbrev Params.legal (p : Params) : Prop :=
  1 ≤ p.n ∧ p.n ≤ maxSlots ∧ p.cfg.legal

/-- The parameters of the one machine `State.reset` names. DESIGN CHOICE (log 3, unsafe): the spec gives no default
envelope (D12, 91_not_in_source.md N2); `N = 32` is its reference value (R8), `P_CASCADE = false` its normative default
(R8), and the envelope values are those of the source's full scenario (95_test_vectors.md W6). -/
def Params.reference : Params where
  n := 32
  cfg := { attack := 1 / 10, decay := 0, sustain := 4 / 5, release := 1 / 5 }
  cascade := false

/-- What the `DIN` port carries, as NUM_ENC reads it (30_encoding.md R76): a Num, or a pattern that encodes none.
In the ℚ reference it is always a Num (log 8). -/
inductive DataIn where
  | num (v : Num)
  | notNum
deriving DecidableEq, Repr

/-- The bits on a data port (20_memory.md R52: one value, presented whole). A format of fixed width uses the patterns of
one length (log 16). -/
abbrev Pattern := List Bool

/-- The parameter `NUM_ENC` (00_scope.md R8), OPEN in the spec (decision D7): `bitsOf` is the pattern a port drives for a
Num, none where a finite format does not hold it; `numOf` is the Num a pattern encodes, none for one such as a NaN pattern
(60_exceptions.md R182, RF8). -/
structure NumEnc where
  bitsOf : Num → Option Pattern
  numOf  : Pattern → Option Num

/-- The legal values of `NUM_ENC`, "any injective encoding" (00_scope.md R8): a pattern driven for a Num encodes that Num,
so no two Nums share one; and a Num that some pattern encodes is one the encoding holds. -/
def NumEnc.legal (e : NumEnc) : Prop :=
  (∀ v b, e.bitsOf v = some b → e.numOf b = some v) ∧ ∀ v b, e.numOf b = some v → ∃ b', e.bitsOf v = some b'

/-- The host's parameters (00_scope.md R8), which VAEG never reads: `SAMPLE_RATE`, and `FREQ_OF` from the pitch byte of an
upstream event to Hz (30_encoding.md R85). -/
structure HostParams where
  sampleRate : Num
  freqOf     : BitVec 8 → Num

/-- Their legal values (00_scope.md R8): a sample rate above zero, and a frequency above zero for every pitch. -/
def HostParams.legal (h : HostParams) : Prop := 0 < h.sampleRate ∧ ∀ pitch, 0 < h.freqOf pitch

/-- The parameters of 00_scope.md R8, the whole table. All are constant for the block's lifetime: `block` goes into the
state at reset, `numEnc` is an argument of the machine seen at its ports, `host` of the host's own definitions. -/
structure VaegParams where
  block  : Params
  numEnc : NumEnc
  host   : HostParams

/-- The legal values of 00_scope.md R8, the whole column. -/
def VaegParams.legal (c : VaegParams) : Prop := c.block.legal ∧ c.numEnc.legal ∧ c.host.legal

end Sys2Proof
end

