-- ==== Sys2Proof/Machine/State.lean ====
section
/-!
DEFINITION. Every piece of state the spec gives VAEG (10_state.md R20 to R36), the ways a step can stop, and the state
after reset.
-/

namespace Sys2Proof.Machine

/-- The five envelope phases (10_state.md R22). -/
inductive Phase where
  | off | attack | decay | sustain | release
deriving DecidableEq, Repr

/-- One voice slot (10_state.md R21): its phase, the time since it last entered Attack, the value of that time when
Release began (`release_started_at`), and its bound frequency in Hz. -/
structure Slot where
  phase   : Phase
  elapsed : Num
  rel     : Num
  freq    : Num
deriving DecidableEq, Repr

/-- A slot after reset (10_state.md R36). -/
def Slot.reset : Slot where
  phase   := .off
  elapsed := 0
  rel     := 0
  freq    := 0

/-- What a command places on the result ports (10_state.md R35, 30_encoding.md R79): nothing, the shaped sample on
`DOUT`, or the tuple `(PH, EL, RL, FQ)` on `VOUT`. -/
inductive Result where
  | nothing
  | dout (y : Num)
  | vout (ph : BitVec 3) (el rl fq : Num)
deriving DecidableEq, Repr

/-- What the host can apply to VAEG's inputs (10_state.md R35): a command, the pair `(CMD, DIN)` of 30_encoding.md R70,
or the reset request `RST` with its configuration inputs. -/
inductive HostInput where
  | command (cmd : Word) (din : DataIn)
  | rst (cfg : CfgIn)
deriving DecidableEq, Repr

/-- The state of VAEG. The capacity `N` is the number of slots (log 14). -/
structure State where
  /-- The configuration registers (10_state.md R26). -/
  cfgAttack  : Num
  cfgDecay   : Num
  cfgSustain : Num
  cfgRelease : Num
  /-- The voice slot file `V[0..N-1]` (10_state.md R20, R21). -/
  slots      : List Slot
  /-- The parameter `P_CASCADE` (00_scope.md R8, 41_envelope.md R150). -/
  cascade    : Bool
  /-- The refusal mark (10_state.md R30): the spec's model bookkeeping, not hardware. -/
  refused    : Option RefusalReason
  /-- The input ports, holding the command being executed (10_state.md R35). -/
  cmd        : Word
  din        : DataIn
  /-- The result ports `DOUT` and `VOUT` (10_state.md R35): the result of the command just executed. -/
  out        : Result
  /-- The model's own field: what the host has still to apply, oldest first (10_state.md R28; log 1). -/
  pending    : List HostInput
deriving DecidableEq, Repr

/-- VAEG raises no exception, trap or fault (60_exceptions.md R180, R188): there is no constructor. -/
inductive Fault
deriving DecidableEq, Repr

/-- Why a step is refused. -/
inductive Refusal where
  /-- Raised by `exec` alone, for an instruction the model gives no meaning; no arm raises it now. Safe. -/
  | notModelled (mnemonic : String)
  /-- Raised by decode, by a command's operand checks, by reset, and by every step of a state whose refusal mark is
  set (60_exceptions.md R182, R183). Safe: the spec gives the command no meaning and the model gives no next state. -/
  | outOfContract (reason : RefusalReason)
deriving DecidableEq, Repr

/-- The three outcomes of a step of VAEG (the host's type). -/
abbrev Outcome := Host.Outcome State Fault Refusal

/-- The state `RESET(N, ATTACK, DECAY, SUSTAIN, RELEASE)` leaves (70_reset_and_hazards.md R211, 10_state.md R36), for
any parameters. The ports hold nothing of the past (log 4) and the host has issued nothing (R212). -/
def State.resetWith (p : Params) : State where
  cfgAttack  := p.cfg.attack
  cfgDecay   := p.cfg.decay
  cfgSustain := p.cfg.sustain
  cfgRelease := p.cfg.release
  slots      := List.replicate p.n Slot.reset
  cascade    := p.cascade
  refused    := none
  cmd        := 0
  din        := .num 0
  out        := .nothing
  pending    := []

/-- The machine right after reset with the reference parameters (log 3). -/
def State.reset : State := State.resetWith Params.reference

end Sys2Proof.Machine
end

