-- ==== Sys2Proof/Machine/Ops.lean ====
section
/-!
DEFINITION. The operations the commands share: reading and writing a slot, searching the slot file, placing a result,
refusing, recording a refusal, and the reset sequence. VAEG has no trap entry and no trap return (60_exceptions.md R188,
R189), so there is no exception operation; reset is the only one of that kind.
-/

namespace Sys2Proof.Machine

/-- The capacity `N` (00_scope.md R8): the number of slots (10_state.md R21). -/
def State.cap (s : State) : Nat := s.slots.length

/-- `V[i]` (00_scope.md R12). An index outside the file names no slot (20_memory.md R51) and no command reads one; the
accessor answers the reset slot there. -/
def State.V (s : State) (i : Nat) : Slot := s.slots.getD i Slot.reset

/-- `V[i] <- v`: the one way a command writes a slot. -/
def State.setSlot (s : State) (i : Nat) (v : Slot) : State := { s with slots := s.slots.set i v }

/-- `out <- r` (00_scope.md R13). Every completed command sets the result ports, to its own result or to nothing: results
are not latched (10_state.md R35; log 10). -/
def State.emit (s : State) (r : Result) : State := { s with out := r }

/-- `first i in 0..N-1 such that P(i)` (00_scope.md R13): the least index, in ascending order (40_voice_pool.md R101). -/
def State.firstSlot (s : State) (p : Slot → Bool) : Option Nat := s.slots.findIdx? p

/-- `refuse(RFk)` (00_scope.md R13): the command ends with no next state (60_exceptions.md R182, R183; log 5). -/
def refuse (r : RefusalReason) : Outcome := .refused (.outOfContract r)

/-- Go on with an operand that passed its checks, or refuse for the reason it failed. -/
def withOperand {α : Type} (e : Except RefusalReason α) (k : α → Outcome) : Outcome :=
  match e with
  | .ok a    => k a
  | .error r => refuse r

/-- The phase codes READ_VOICE reports (10_state.md R22, the spec's decision D18). -/
def Phase.code : Phase → BitVec 3
  | .off     => 0b000#3
  | .attack  => 0b001#3
  | .decay   => 0b010#3
  | .sustain => 0b011#3
  | .release => 0b100#3

/-- The parameters of the running block with new configuration inputs: `N` and `P_CASCADE` are structural and stay
(00_scope.md R8, 10_state.md R35; log 9). -/
def State.params (s : State) (c : CfgIn) : Params := { n := s.cap, cfg := c, cascade := s.cascade }

/-- The reset sequence (70_reset_and_hazards.md R211): refused with RF7 outside the legal ranges. -/
def resetBlock (p : Params) : Outcome :=
  if p.legal then .next (State.resetWith p) else refuse .badConfig

/-- `RST` with `CFG_IN` (10_state.md R35, 70_reset_and_hazards.md R210), the host having `rest` still to apply. -/
def applyRst (s : State) (c : CfgIn) (rest : List HostInput) : Outcome :=
  match resetBlock (s.params c) with
  | .next t    => .next { t with pending := rest }
  | .fault f   => .fault f
  | .refused r => .refused r

/-- The state that records an outcome: the next state, or this one with its refusal mark set (10_state.md R30,
60_exceptions.md R182). The other fields of a marked state mean nothing (R183; log 5). -/
def recordOutcome (s : State) : Outcome → State
  | .next t                    => t
  | .refused (.outOfContract r) => { s with refused := some r }
  | .refused _                 => s
  | .fault _                   => s

end Sys2Proof.Machine
end

