-- ==== Sys2Proof/Machine/Operands.lean ====
section
/-!
DEFINITION. The operands of the commands and their checks (30_encoding.md R73, R76; 60_exceptions.md R182, R185).
-/

namespace Sys2Proof.Machine

/-- What the data port carries when the host drives the pattern `b` under the encoding `e` (30_encoding.md R76). -/
def readPort (e : NumEnc) (b : Pattern) : DataIn :=
  match e.numOf b with
  | some v => .num v
  | none   => .notNum

/-- The Num on `DIN`; RF8 when the pattern encodes none (30_encoding.md R76). -/
def numOperand (d : DataIn) : Except RefusalReason Num :=
  match d with
  | .num v  => .ok v
  | .notNum => .error .badNum

/-- A Num on `DIN` that must be above zero, refused with `r` otherwise; RF8 comes first (60_exceptions.md R185). -/
def positiveOperand (r : RefusalReason) (d : DataIn) : Except RefusalReason Num :=
  match numOperand d with
  | .ok v    => if 0 < v then .ok v else .error r
  | .error e => .error e

/-- The frequency operand of NOTE_ON and NOTE_OFF (40_voice_pool.md R107). -/
def freqOperand (d : DataIn) : Except RefusalReason Num := positiveOperand .badFrequency d

/-- The time step operand of ADVANCE (40_voice_pool.md R113). -/
def deltaOperand (d : DataIn) : Except RefusalReason Num := positiveOperand .badDelta d

/-- The slot `V[i]` a command addresses; RF4 when `i` names none (20_memory.md R51; log 12). -/
def slotOperand (s : State) (i : Nat) : Except RefusalReason Slot :=
  if i < s.cap then .ok (s.V i) else .error .slotRange

end Sys2Proof.Machine
end

