-- ==== Sys2Proof/Machine/Envelope.lean ====
section
/-!
DEFINITION. The EnvelopeGenerator command SAMPLE and its phase state machine (41_envelope.md).
-/

namespace Sys2Proof.Machine

/-- The pseudocode of 41_envelope.md R142: the phase SAMPLE leaves slot `v` in and the shaped sample, from the
configuration of `s` and the raw sample `x`. Each division stands behind its guard (R149). -/
def envelope (s : State) (v : Slot) (x : Num) : Phase × Num :=
  match v.phase with
  | .attack =>
    if 0 < s.cfgAttack ∧ v.elapsed < s.cfgAttack then (.attack, x * (v.elapsed / s.cfgAttack))
    else if s.cascade then (.sustain, x * s.cfgSustain)
    else (.decay, x)
  | .decay => (.sustain, if s.cascade then x * s.cfgSustain else x)
  | .sustain => (.sustain, x * s.cfgSustain)
  | .release =>
    if 0 < s.cfgRelease ∧ v.elapsed - v.rel < s.cfgRelease then
      (.release, x * s.cfgSustain * (1 - (v.elapsed - v.rel) / s.cfgRelease))
    else (.off, 0)
  | .off => (.off, 0)

/-- `gain(phase, e, r)` of 41_envelope.md R151, the envelope gain of a slot, free of the raw sample. -/
def gain (s : State) (v : Slot) : Num :=
  match v.phase with
  | .attack =>
    if 0 < s.cfgAttack ∧ v.elapsed < s.cfgAttack then v.elapsed / s.cfgAttack
    else if s.cascade then s.cfgSustain
    else 1
  | .decay   => if s.cascade then s.cfgSustain else 1
  | .sustain => s.cfgSustain
  | .release =>
    if 0 < s.cfgRelease ∧ v.elapsed - v.rel < s.cfgRelease then
      s.cfgSustain * (1 - (v.elapsed - v.rel) / s.cfgRelease)
    else 0
  | .off => 0

/-- SAMPLE (41_envelope.md R142): the shaped sample goes to `DOUT` and only the slot's phase is written (R148). -/
def execSample (slot : Nat) (s : State) : Outcome :=
  withOperand (slotOperand s slot) fun v =>
    withOperand (numOperand s.din) fun x =>
      .next ((s.setSlot slot { v with phase := (envelope s v x).1 }).emit (.dout (envelope s v x).2))

end Sys2Proof.Machine
end

