-- ==== Sys2Proof/Machine/Flags.lean ====
section
/-!
DEFINITION. VAEG has no flags and no status register (10_state.md R28), and no command computes one. What its commands
test instead are the predicates on a slot of 40_voice_pool.md R102.
-/

namespace Sys2Proof.Machine

/-- `bound(i, f)`: the slot's frequency is `f`, whatever its phase (40_voice_pool.md R102, R104). -/
def Slot.bound (f : Num) (v : Slot) : Bool := v.freq = f

/-- `free(i)` (40_voice_pool.md R102). -/
def Slot.free (v : Slot) : Bool := v.phase = .off

/-- `held(i)`: Attack, Decay or Sustain, the phases in which NOTE_OFF acts (40_voice_pool.md R102, R109). -/
def Slot.held (v : Slot) : Bool := v.phase = .attack || v.phase = .decay || v.phase = .sustain

/-- `sounding(i)`: the slots ADVANCE advances (40_voice_pool.md R102). -/
def Slot.sounding (v : Slot) : Bool := v.phase ≠ .off

end Sys2Proof.Machine
end

