-- ==== Sys2Proof/Machine/VoicePool.lean ====
section
/-!
DEFINITION. The VoicePool commands NOTE_ON, NOTE_OFF, ADVANCE and READ_VOICE (40_voice_pool.md).
-/

namespace Sys2Proof.Machine

/-- A slot whose note on frequency `f` has just started (40_voice_pool.md R103). -/
def Slot.started (f : Num) : Slot := { phase := .attack, elapsed := 0, rel := 0, freq := f }

/-- A slot whose release begins now (40_voice_pool.md R108): `rel` records `elapsed`; `elapsed` and `freq` stay (R110,
R111). -/
def Slot.released (v : Slot) : Slot := { v with rel := v.elapsed, phase := .release }

/-- A slot after the time step `d` (40_voice_pool.md R112): only a sounding slot moves. -/
def Slot.advanced (d : Num) (v : Slot) : Slot :=
  if v.sounding then { v with elapsed := v.elapsed + d } else v

/-- The slot NOTE_ON takes for `f`: the one bound to `f` in any phase, and only if there is none the first free one
(40_voice_pool.md R103, R104). -/
def noteOnTarget (s : State) (f : Num) : Option Nat :=
  match s.firstSlot (Slot.bound f) with
  | some j => some j
  | none   => s.firstSlot Slot.free

/-- The slot NOTE_OFF releases for `f`: the first one bound to `f` in a held phase (40_voice_pool.md R108, R109). -/
def noteOffTarget (s : State) (f : Num) : Option Nat :=
  s.firstSlot fun v => v.bound f && v.held

/-- NOTE_ON (40_voice_pool.md R103): binds or re-triggers a slot; with none to take, the note is dropped and nothing
changes (R105). -/
def execNoteOn (s : State) : Outcome :=
  withOperand (freqOperand s.din) fun f =>
    match noteOnTarget s f with
    | some j => .next ((s.setSlot j (Slot.started f)).emit .nothing)
    | none   => .next (s.emit .nothing)

/-- NOTE_OFF (40_voice_pool.md R108): starts the release of the held slot bound to the frequency, if there is one. -/
def execNoteOff (s : State) : Outcome :=
  withOperand (freqOperand s.din) fun f =>
    match noteOffTarget s f with
    | some j => .next ((s.setSlot j (s.V j).released).emit .nothing)
    | none   => .next (s.emit .nothing)

/-- ADVANCE (40_voice_pool.md R112): moves the time of every sounding slot. -/
def execAdvance (s : State) : Outcome :=
  withOperand (deltaOperand s.din) fun d =>
    .next (State.emit { s with slots := s.slots.map (Slot.advanced d) } .nothing)

/-- READ_VOICE (40_voice_pool.md R114): reports one slot and writes no slot. -/
def execReadVoice (slot : Nat) (s : State) : Outcome :=
  withOperand (slotOperand s slot) fun v =>
    .next (s.emit (.vout v.phase.code v.elapsed v.rel v.freq))

end Sys2Proof.Machine
end

