-- ==== Sys2Proof/Syntax.lean ====
section
/-!
DEFINITION. The command set VAEG-1: one constructor per row of spec/opcode_table.json.
-/

namespace Sys2Proof

/-- A VAEG-1 command, less its data operand, which travels on `DIN` (30_encoding.md R70, R72, R76). -/
inductive Instr where
  /-- ADVANCE, opcode 0x1: `DIN` is the time step (40_voice_pool.md R112). -/
  | advance
  /-- SAMPLE, opcode 0x2, of slot `slot`: `DIN` is the raw sample (41_envelope.md R142). -/
  | sample (slot : Nat)
  /-- READ_VOICE, opcode 0x3, of slot `slot`: `DIN` is ignored (40_voice_pool.md R114). -/
  | readVoice (slot : Nat)
  /-- NOTE_OFF, opcode 0x8: `DIN` is the frequency (40_voice_pool.md R108). -/
  | noteOff
  /-- NOTE_ON, opcode 0x9: `DIN` is the frequency (40_voice_pool.md R103). -/
  | noteOn
deriving DecidableEq, Repr

/-- The `SLOT` operand of a command, where it has one (30_encoding.md R72, R73). -/
def Instr.slot? : Instr → Option Nat
  | .advance     => none
  | .sample s    => some s
  | .readVoice s => some s
  | .noteOff     => none
  | .noteOn      => none

end Sys2Proof
end

