-- ==== Sys2Proof/Machine/Dispatch.lean ====
section
/-!
DEFINITION. One arm per command: which meaning runs.
-/

namespace Sys2Proof.Machine

def exec (i : Instr) (s : State) : Host.Outcome State Fault Refusal :=
  match i with
  | .advance => Sys2Proof.Machine.execAdvance s
  | .sample slot => Sys2Proof.Machine.execSample slot s
  | .readVoice slot => Sys2Proof.Machine.execReadVoice slot s
  | .noteOff => Sys2Proof.Machine.execNoteOff s
  | .noteOn => Sys2Proof.Machine.execNoteOn s

end Sys2Proof.Machine
end

