-- ==== Sys2Proof/WellFormed.lean ====
section
/-!
DEFINITION. Which commands are well formed for a VAEG of `n` slots.
-/

namespace Sys2Proof

/-- The slot index fits the 8-bit `SLOT` field (30_encoding.md R71). -/
def Instr.slotFits (i : Instr) : Bool :=
  match i.slot? with
  | none   => true
  | some s => s < maxSlots

/-- The slot index names one of the `n` slots (20_memory.md R50, R51). -/
def Instr.slotInFile (n : Nat) (i : Instr) : Bool :=
  match i.slot? with
  | none   => true
  | some s => s < n

/-- A command is well formed for capacity `n` when it has a legal command word (30_encoding.md R77, R81). -/
def Instr.wf (n : Nat) (i : Instr) : Bool :=
  i.slotFits && i.slotInFile n

end Sys2Proof
end

