-- ==== Sys2Proof/Decode.lean ====
section
/-!
DEFINITION. Decoding a command word (30_encoding.md R71 to R80), total on every word and rejecting by reason, and
encoding a command (R81).
-/

namespace Sys2Proof

/-- `OP = CMD[31:28]` (30_encoding.md R71). -/
def opField (w : Word) : BitVec 4 := w.extractLsb' 28 4

/-- `RSVD = CMD[27:8]` (30_encoding.md R71). -/
def rsvdField (w : Word) : BitVec 20 := w.extractLsb' 8 20

/-- `SLOT = CMD[7:0]`, read as an unsigned integer (30_encoding.md R71, R73). -/
def slotField (w : Word) : Nat := (w.extractLsb' 0 8).toNat

/-- The opcode map (30_encoding.md R72): the command opcode `op` names, its slot operand being `s`; none for the
reserved opcodes of R77. -/
def instrOf (op : BitVec 4) (s : Nat) : Option Instr :=
  if op = 0x1#4 then some .advance
  else if op = 0x2#4 then some (.sample s)
  else if op = 0x3#4 then some (.readVoice s)
  else if op = 0x8#4 then some .noteOff
  else if op = 0x9#4 then some .noteOn
  else none

/-- The opcode and the reserved bits are settled; the `SLOT` field is checked last (30_encoding.md R80, RF3 or RF4). -/
def checkSlot (n : Nat) (w : Word) (i : Instr) : Except RefusalReason Instr :=
  match i.slot? with
  | none   => if slotField w ≠ 0 then .error .slotNotZero else .ok i
  | some s => if n ≤ s then .error .slotRange else .ok i

/-- `decode(CMD)` of 30_encoding.md R80, with the capacity `n` as its parameter. The checks run in the order RF1, RF2,
RF3 or RF4 (60_exceptions.md R185). -/
def decode (n : Nat) (w : Word) : Except RefusalReason Instr :=
  match instrOf (opField w) (slotField w) with
  | none   => .error .reservedOpcode
  | some i => if rsvdField w ≠ 0 then .error .reservedBits else checkSlot n w i

/-- `enc` of 30_encoding.md R81. -/
def encode : Instr → Word
  | .advance     => 0x10000000#32
  | .sample s    => 0x20000000#32 ||| BitVec.ofNat 32 s
  | .readVoice s => 0x30000000#32 ||| BitVec.ofNat 32 s
  | .noteOff     => 0x80000000#32
  | .noteOn      => 0x90000000#32

/-- The `OP` value of a command (30_encoding.md R72). -/
def Instr.opcode : Instr → BitVec 4
  | .advance     => 0x1#4
  | .sample _    => 0x2#4
  | .readVoice _ => 0x3#4
  | .noteOff     => 0x8#4
  | .noteOn      => 0x9#4

/-- The command word the table's bits `w` spell: one whole 32-bit value (20_memory.md R52, R53), the bits from `nbits`
up being zero; none when the row is wider than a command word. -/
def tableWord (nbits w : Nat) : Option Word :=
  if nbits ≤ 32 then some (BitVec.ofNat 32 (w % 2 ^ nbits)) else none

/-- The command the decoder of the machine `State.reset` (capacity `Params.reference.n`) reads from the table's bits
`w`. -/
def decodeTableWord (nbits w : Nat) : Option Instr :=
  match tableWord nbits w with
  | none   => none
  | some c => (decode Params.reference.n c).toOption

end Sys2Proof
end

