-- ==== Sys2Proof/Machine/Fetch.lean ====
section
/-!
DEFINITION. How the host's next input reaches the ports, and how a command is placed there. VAEG fetches nothing itself
(70_reset_and_hazards.md R212): the host's sequence of commands is the program (10_state.md R28; log 1, log 2).
-/

namespace Sys2Proof.Machine

/-- The command `(w, d)` on the input ports (10_state.md R35), the host having `rest` still to apply. -/
def State.present (s : State) (w : Word) (d : DataIn) (rest : List HostInput) : State :=
  { s with cmd := w, din := d, pending := rest }

/-- Between commands VAEG holds its state (60_exceptions.md R196); the result of the last command is not latched
(10_state.md R35; log 10). -/
def idle (s : State) : State := s.emit .nothing

/-- What the next step meets: an outcome that needs no command, or a state with a command on its ports. -/
inductive Presented where
  | settled (o : Outcome)
  | command (t : State)

/-- The next input, in the order the host issues them (20_memory.md R57). A state whose refusal mark is set has no
defined step (60_exceptions.md R183; log 6); with no input VAEG waits (70_reset_and_hazards.md R212). -/
def nextInput (s : State) : Presented :=
  match s.refused with
  | some r => .settled (refuse r)
  | none =>
    match s.pending with
    | []                   => .settled (.next (idle s))
    | .command w d :: rest => .command (s.present w d rest)
    | .rst c :: rest       => .settled (applyRst s c rest)

/-- The command on the ports (30_encoding.md R80): decoding comes before `DIN` or a slot is read. -/
def decodePort (t : State) : Except RefusalReason Instr := decode t.cap t.cmd

/-- The host issues `(w, d)` next, before whatever it was to issue. -/
def State.issue (s : State) (w : Word) (d : DataIn) : State :=
  { s with pending := .command w d :: s.pending }

end Sys2Proof.Machine
end

