-- ==== Sys2Proof/Machine/Step.lean ====
section
/-!
DEFINITION. One step of VAEG: the host's next input, taken whole (20_memory.md R54).
-/

namespace Sys2Proof.Machine

/-- One step: take the host's next input; if it is a command, decode it and execute it. -/
def step (s : State) : Host.Outcome State Fault Refusal :=
  match nextInput s with
  | .settled o => o
  | .command t => withOperand (decodePort t) fun i => exec i t

/-- The step that records a refusal instead of stopping at it: the spec's sticky mark (10_state.md R30,
60_exceptions.md R183). -/
def stepMarked (s : State) : State := recordOutcome s (step s)

/-- `s` with the host about to issue the table's word `w`. A command is a pair and the table gives no data operand, so
`DIN` carries the Num 1, which every command accepts (log 2). -/
def State.withFetchWord (s : State) (nbits w : Nat) : State :=
  match tableWord nbits w with
  | some c => s.issue c (.num 1)
  | none   => s

end Sys2Proof.Machine
end

