-- ==== Sys2Proof/Machine/Frame.lean ====
section
/-!
DEFINITION. The host's side of the command port: a sequence of inputs and its results, one frame (30_encoding.md R83,
70_reset_and_hazards.md R214), SCAN (R84), and the upstream event layer (R85). None of this is VAEG state.
-/

namespace Sys2Proof.Machine

/-- The pair `(CMD, DIN)` of command `i` with data operand `v` (30_encoding.md R70, R82). -/
def input (i : Instr) (v : Num) : HostInput := .command (encode i) (.num v)

/-- The host applies `c` now, ahead of what it was to apply (20_memory.md R57). -/
def applyInput (c : HostInput) (s : State) : Outcome := step { s with pending := c :: s.pending }

/-- The host applies a sequence of inputs in order: the last state and the result of each (20_memory.md R57). It stops at
the first refusal (60_exceptions.md R183). -/
def runInputs : List HostInput → State → Host.Outcome (State × List Result) Fault Refusal
  | [], s => .next (s, [])
  | c :: cs, s =>
    match applyInput c s with
    | .fault f   => .fault f
    | .refused r => .refused r
    | .next t =>
      match runInputs cs t with
      | .next (u, rs) => .next (u, t.out :: rs)
      | .fault f      => .fault f
      | .refused r    => .refused r

/-- An outcome with its state changed by `g`; a stop stays as it is. -/
def mapNext {α β : Type} (g : α → β) : Host.Outcome α Fault Refusal → Host.Outcome β Fault Refusal
  | .next a    => .next (g a)
  | .fault f   => .fault f
  | .refused r => .refused r

/-- The sum of the shaped samples among the results, as the host's driver forms it (00_scope.md R5, 30_encoding.md
R83). -/
def sumDout (rs : List Result) : Num :=
  (rs.map fun r => match r with | .dout y => y | _ => 0).sum

/-- `FRAME d, raw 0, …, raw (n-1)` (30_encoding.md R83): SAMPLE of every slot, then ADVANCE. -/
def frameInputs (n : Nat) (d : Num) (raw : Nat → Num) : List HostInput :=
  ((List.range n).map fun i => input (.sample i) (raw i)) ++ [input .advance d]

/-- The frame that samples only the sounding slots of `s` (70_reset_and_hazards.md R214, H3 and H4). -/
def soundingFrame (s : State) (d : Num) (raw : Nat → Num) : List HostInput :=
  (((List.range s.cap).filter fun i => (s.V i).phase ≠ .off).map fun i => input (.sample i) (raw i)) ++
    [input .advance d]

/-- The frame a host that keeps the duties H3 to H5 issues at its global time `t` (70_reset_and_hazards.md R214): the raw
sample of a slot is the oscillator at the slot's frequency, and the time step is `1 / SAMPLE_RATE`. -/
def hostFrame (h : HostParams) (osc : Num → Num → Num) (t : Num) (s : State) : List HostInput :=
  soundingFrame s (1 / h.sampleRate) fun i => osc t (s.V i).freq

/-- `SCAN` (30_encoding.md R84): READ_VOICE of every slot, in ascending order. -/
def scanInputs (n : Nat) : List HostInput := (List.range n).map fun i => input (.readVoice i) 0

/-- The upstream event layer (30_encoding.md R85), outside VAEG: the command for the 3-byte event, the
frequency being `FREQ_OF` of its pitch byte (00_scope.md R8); none for a status the source does not define. The third
byte has no meaning in the source and none here. -/
def eventInput (h : HostParams) (status pitch _third : BitVec 8) : Option HostInput :=
  if status = 0x90#8 then some (input .noteOn (h.freqOf pitch))
  else if status = 0x80#8 then some (input .noteOff (h.freqOf pitch))
  else none

end Sys2Proof.Machine
end

