-- ==== Sys2Proof/Machine/Ports.lean ====
section
/-!
DEFINITION. VAEG seen at its ports (10_state.md R35): Nums travel as patterns of the encoding NUM_ENC, which is a parameter
of the block (00_scope.md R8) and no part of its state.
-/

namespace Sys2Proof.Machine

/-- What the host applies at the input ports (10_state.md R35, 30_encoding.md R70): a command word with the pattern on
`DIN`, or `RST` with `CFG_IN`, whose values are the parameters themselves (log 16). -/
inductive PinInput where
  | command (cmd : Word) (din : Pattern)
  | rst (cfg : CfgIn)
deriving DecidableEq, Repr

/-- What stands on the result ports: a Num is the pattern NUM_ENC gives it, or none where a finite format does not hold
that Num (log 16). -/
inductive PortResult where
  | nothing
  | dout (y : Option Pattern)
  | vout (ph : BitVec 3) (el rl fq : Option Pattern)
deriving DecidableEq, Repr

/-- An input as NUM_ENC reads it (30_encoding.md R76). -/
def readPins (e : NumEnc) : PinInput → HostInput
  | .command w b => .command w (readPort e b)
  | .rst c       => .rst c

/-- A result as NUM_ENC puts it on `DOUT` and `VOUT` (30_encoding.md R79); the phase code is bits already. -/
def driveResult (e : NumEnc) : Result → PortResult
  | .nothing          => .nothing
  | .dout y           => .dout (e.bitsOf y)
  | .vout ph el rl fq => .vout ph (e.bitsOf el) (e.bitsOf rl) (e.bitsOf fq)

/-- The host's pair `(CMD, DIN)` for the command `i` with the Num `v`, where the encoding holds `v` (30_encoding.md R70,
R76). -/
def pinInput (e : NumEnc) (i : Instr) (v : Num) : Option PinInput := (e.bitsOf v).map fun b => .command (encode i) b

/-- A sequence of inputs at the ports of a block with the encoding `e`: the last state, and what the result ports showed
after each. -/
def runPins (e : NumEnc) (cs : List PinInput) (s : State) :
    Host.Outcome (State × List PortResult) Fault Refusal :=
  mapNext (fun r => (r.1, r.2.map (driveResult e))) (runInputs (cs.map (readPins e)) s)

/-- The block with the parameters `c` (00_scope.md R8): reset with its own parameters, then the host's inputs at its
ports, all under its one encoding. -/
def runBlock (c : VaegParams) (cs : List PinInput) : Host.Outcome (State × List PortResult) Fault Refusal :=
  match resetBlock c.block with
  | .next s    => runPins c.numEnc cs s
  | .fault f   => .fault f
  | .refused r => .refused r

end Sys2Proof.Machine
end

