-- ==== Sys2Proof/Safety.lean ====
section
/-!
DEFINITION. What counts as a good state and a good run: the invariant of 10_state.md R33, the contract of the host
(70_reset_and_hazards.md R214, H7), and the order of the envelope phases (10_state.md R34).
-/

namespace Sys2Proof.Machine

/-- R33 (b), (c), (d) for one slot: times and frequency are not negative, a releasing slot began its release at a time it
has reached, and a slot that is not Off has a frequency. -/
abbrev Slot.good (v : Slot) : Prop :=
  0 ≤ v.elapsed ∧ (v.phase = .release → 0 ≤ v.rel ∧ v.rel ≤ v.elapsed) ∧ 0 ≤ v.freq ∧ (v.phase ≠ .off → 0 < v.freq)

/-- R33 (a): a frequency above zero is bound to at most one slot, Off slots counted too. -/
abbrev State.uniqueFreq (s : State) : Prop :=
  ∀ i < s.cap, ∀ j < s.cap, 0 < (s.V i).freq → (s.V i).freq = (s.V j).freq → i = j

/-- R33 (e): the configuration registers are in their legal ranges. -/
abbrev State.cfgGood (s : State) : Prop :=
  0 ≤ s.cfgAttack ∧ 0 ≤ s.cfgDecay ∧ 0 ≤ s.cfgRelease ∧ 0 ≤ s.cfgSustain ∧ s.cfgSustain ≤ 1

/-- The invariant of 10_state.md R33, with the legal range of `N` (00_scope.md R8). -/
structure State.Inv (s : State) : Prop where
  cap    : 1 ≤ s.cap ∧ s.cap ≤ maxSlots
  unique : s.uniqueFreq
  slots  : ∀ i < s.cap, (s.V i).good
  cfg    : s.cfgGood

/-- Under the cascade no slot is in Decay (41_envelope.md R150). -/
abbrev State.noDecayUnderCascade (s : State) : Prop :=
  s.cascade = true → ∀ i < s.cap, (s.V i).phase ≠ .decay

/-- The place of a phase in the order Attack, Decay, Sustain, Release, Off (10_state.md R34). -/
def Phase.rank : Phase → Nat
  | .attack  => 0
  | .decay   => 1
  | .sustain => 2
  | .release => 3
  | .off     => 4

/-- The data operand a command needs (30_encoding.md R76, H7 of 70_reset_and_hazards.md R214). -/
def dinOk (i : Instr) (d : DataIn) : Prop :=
  match i with
  | .noteOn | .noteOff | .advance => ∃ v, d = .num v ∧ 0 < v
  | .sample _                     => ∃ v, d = .num v
  | .readVoice _                  => True

/-- The command and its operand are inside the contract (60_exceptions.md R184). -/
def inContract (i : Instr) (s : State) : Prop := i.slotInFile s.cap = true ∧ dinOk i s.din

/-- `CMD[31:28]` as arithmetic on the word's value (00_scope.md R11, 30_encoding.md R71), apart from the decoder's own
reading of the bits. -/
abbrev wordOp (w : Word) : Nat := w.toNat / 2 ^ 28

/-- `CMD[27:8]` as arithmetic on the word's value. -/
abbrev wordRsvd (w : Word) : Nat := w.toNat / 2 ^ 8 % 2 ^ 20

/-- `CMD[7:0]` as arithmetic on the word's value. -/
abbrev wordSlot (w : Word) : Nat := w.toNat % 2 ^ 8

end Sys2Proof.Machine
end

