-- ==== Sys2Proof/Certificates/Slice0/Obligations.lean ====
section
/-!
DEFINITION. The statements about VAEG for the provers. Each docstring names the sentence of the spec it formalises, and
the decision D<n> or the log entry behind a clause that is not the source's own.
-/

open Sys2Proof Sys2Proof.Machine

/-! ## Encoding -/

/-- 30_encoding.md R81: `decode(enc(c)) = c` for every legal command (encoding: the spec's decisions D3, D4). -/
def Obligations.DecodeOfEncodedCommand : Prop :=
  ∀ (n : Nat) (i : Instr), 1 ≤ n → n ≤ 256 → i.wf n = true → decode n (encode i) = .ok i

/-- 30_encoding.md R81: `enc(decode(w)) = w` for every legal word, and decoding gives only commands whose slot exists
(decisions D3, D4). -/
def Obligations.EncodeOfDecodedWord : Prop :=
  ∀ (n : Nat) (w : Word) (i : Instr), decode n w = .ok i → encode i = w ∧ i.wf (min n 256) = true

/-- 30_encoding.md R74, R75, R77, R80 and 60_exceptions.md R185: which word is rejected for which reason, in the order
RF1, RF2, RF3 or RF4 (decisions D4, D5, D6). -/
def Obligations.WordsRejectedByReasonInOrder : Prop :=
  ∀ (n : Nat) (w : Word),
    (decode n w = .error .reservedOpcode ↔ wordOp w ∉ [1, 2, 3, 8, 9]) ∧
    (decode n w = .error .reservedBits ↔ wordOp w ∈ [1, 2, 3, 8, 9] ∧ wordRsvd w ≠ 0) ∧
    (decode n w = .error .slotNotZero ↔ wordOp w ∈ [1, 8, 9] ∧ wordRsvd w = 0 ∧ wordSlot w ≠ 0) ∧
    (decode n w = .error .slotRange ↔ wordOp w ∈ [2, 3] ∧ wordRsvd w = 0 ∧ n ≤ wordSlot w) ∧
    (∀ r, decode n w = .error r → r ∈ [.reservedOpcode, .reservedBits, .slotNotZero, .slotRange])

/-- The number of legal command words for capacity `n`. 30_encoding.md R78 counts one word each for NOTE_ON, NOTE_OFF and
ADVANCE and `N` each for SAMPLE and READ_VOICE, that is `3 + 2*N`; its headline figure `5 + 2*N` disagrees with its own
items (log 11, DEDUCED). -/
def Obligations.LegalWordCountIsThreePlusTwoN : Prop :=
  ∀ n : Nat, 1 ≤ n → n ≤ 256 → Set.ncard { w : Word | ∃ i, decode n w = .ok i } = 3 + 2 * n

/-- Words written out from 30_encoding.md R71, R72 and the vectors DE-1 to DE-17 of 95_test_vectors.md (decisions D3,
D4, D5). -/
def Obligations.SpecWordsDecode : Prop :=
  decode 2 0x90000000#32 = .ok .noteOn ∧ decode 2 0x80000000#32 = .ok .noteOff ∧
  decode 2 0x10000000#32 = .ok .advance ∧ decode 2 0x20000001#32 = .ok (.sample 1) ∧
  decode 256 0x300000FF#32 = .ok (.readVoice 255) ∧ decode 2 0x20000002#32 = .error .slotRange ∧
  decode 2 0x7FFFFFFF#32 = .error .reservedOpcode ∧ decode 2 0x2FFFFFFF#32 = .error .reservedBits ∧
  decode 2 0x98000000#32 = .error .reservedBits ∧ decode 2 0x10000005#32 = .error .slotNotZero

/-! ## Reset -/

/-- 10_state.md R36, 70_reset_and_hazards.md R211: what reset leaves, for all legal parameters (`elapsed` and `rel` 0:
decision D13; the mark: D29). -/
def Obligations.ResetLeavesTheStatedState : Prop :=
  ∀ p : Params, p.legal → ∃ t, resetBlock p = .next t ∧ t.cap = p.n ∧
    (∀ i < p.n, t.V i = { phase := .off, elapsed := 0, rel := 0, freq := 0 }) ∧
    t.cfgAttack = p.cfg.attack ∧ t.cfgDecay = p.cfg.decay ∧ t.cfgSustain = p.cfg.sustain ∧
    t.cfgRelease = p.cfg.release ∧ t.cascade = p.cascade ∧ t.refused = none

/-- 60_exceptions.md R182, row RF7: exactly the parameters outside their ranges are refused at reset (decision D12). -/
def Obligations.ResetRefusesExactlyBadConfigurations : Prop :=
  ∀ p : Params, resetBlock p = .refused (.outOfContract .badConfig) ↔
    (p.n < 1 ∨ 256 < p.n ∨ p.cfg.attack < 0 ∨ p.cfg.decay < 0 ∨ p.cfg.release < 0 ∨ p.cfg.sustain < 0 ∨
      1 < p.cfg.sustain)

/-- 10_state.md R35, 70_reset_and_hazards.md R210, R211: `RST` with `CFG_IN` resets the running block, its `N` and
`P_CASCADE` staying, and is refused on a configuration outside its range. That `RST` arrives as one of the host's inputs
is the model's choice (log 1, log 9). -/
def Obligations.RstResetsTheRunningBlock : Prop :=
  ∀ (s : State) (c : CfgIn) (rest : List HostInput),
    s.refused = none → s.pending = .rst c :: rest → 1 ≤ s.cap → s.cap ≤ 256 →
    (c.legal → step s =
      .next { State.resetWith { n := s.cap, cfg := c, cascade := s.cascade } with pending := rest }) ∧
    (¬ c.legal → step s = .refused (.outOfContract .badConfig))

/-- Every reset state, the named `State.reset` among them (its parameters: log 3), meets the invariant of 10_state.md
R33. -/
def Obligations.ResetMeetsTheInvariant : Prop :=
  (∀ p : Params, p.legal → (State.resetWith p).Inv ∧ (State.resetWith p).noDecayUnderCascade) ∧ State.reset.Inv

/-! ## A step -/

/-- A step runs the decoded command, on the state with the command on its ports (20_memory.md R54, R57: decisions D22,
D2; that the host's inputs stand in `pending`: log 1). -/
def Obligations.StepRunsTheDecodedCommand : Prop :=
  ∀ (s : State) (w : Word) (d : DataIn) (rest : List HostInput) (i : Instr),
    s.refused = none → s.pending = .command w d :: rest → decode s.cap w = .ok i →
    step s = exec i { s with cmd := w, din := d, pending := rest }

/-- A word that decodes to no command is refused for the decoder's reason (30_encoding.md R80, 60_exceptions.md R182,
R183: decisions D5, D29; the refusal as the outcome of the step: log 5). -/
def Obligations.StepRefusesAnUndecodableWord : Prop :=
  ∀ (s : State) (w : Word) (d : DataIn) (rest : List HostInput) (r : RefusalReason),
    s.refused = none → s.pending = .command w d :: rest → decode s.cap w = .error r →
    step s = .refused (.outOfContract r)

/-- 70_reset_and_hazards.md R212, 60_exceptions.md R196: with no input VAEG waits and holds its state; only the result
ports, which are not latched, are cleared (10_state.md R35; log 1, log 10). -/
def Obligations.StepWaitsWithoutInput : Prop :=
  ∀ s : State, s.refused = none → s.pending = [] → step s = .next { s with out := .nothing }

/-- 10_state.md R30, 60_exceptions.md R182, R183 (decision D29): a refused step sets the mark to its reason; once set it
is never cleared, and no later step has a next state (log 5, log 6). -/
def Obligations.RefusalMarkIsSticky : Prop :=
  (∀ (s : State) (r : RefusalReason), step s = .refused (.outOfContract r) → (stepMarked s).refused = some r) ∧
  (∀ (s : State) (r : RefusalReason) (k : Nat), s.refused = some r →
    (stepMarked^[k] s).refused = some r ∧ ∀ t, step (stepMarked^[k] s) ≠ .next t)

/-- Every step keeps the invariant of 10_state.md R33 (a) to (e) and the range of `N`. -/
def Obligations.StepKeepsTheInvariant : Prop :=
  ∀ s t : State, s.Inv → step s = .next t → t.Inv

/-- 41_envelope.md R150: under `P_CASCADE = true` no slot is in Decay at the start of a command (decision D14). -/
def Obligations.StepKeepsNoDecayUnderCascade : Prop :=
  ∀ s t : State, s.noDecayUnderCascade → step s = .next t → t.noDecayUnderCascade

/-- The configuration registers are written only at reset (10_state.md R26, decision D12). That a step which applies `RST`
keeps `N` and `P_CASCADE`, while it writes the four configuration values, is the model's choice (log 9, DEDUCED from the
"constant for the block's lifetime" of 00_scope.md R8); and so is the clause that a state with a next state has no mark
after it (log 5, log 6). -/
def Obligations.StepKeepsParametersAndConfiguration : Prop :=
  ∀ s t : State, step s = .next t →
    t.cap = s.cap ∧ t.cascade = s.cascade ∧ t.refused = none ∧
    ((∀ c, s.pending.head? ≠ some (.rst c)) →
      t.cfgAttack = s.cfgAttack ∧ t.cfgDecay = s.cfgDecay ∧ t.cfgSustain = s.cfgSustain ∧
      t.cfgRelease = s.cfgRelease)

/-! ## Contract and refusals of commands -/

/-- 60_exceptions.md R184 with R182: a command completes exactly when its slot exists and its operand is in the contract
(decisions D6, D11, D24, D29). -/
def Obligations.CommandCompletesExactlyInContract : Prop :=
  ∀ (i : Instr) (s : State), (∃ t, exec i s = .next t) ↔ inContract i s

/-- 60_exceptions.md R182, R185: the reason of a refused command, RF4 before RF8 before RF5 or RF6 (decisions D5, D6,
D11). -/
def Obligations.RefusalReasonsOfCommands : Prop :=
  ∀ s : State,
    (∀ i ∈ [Instr.noteOn, .noteOff],
      (s.din = .notNum → exec i s = .refused (.outOfContract .badNum)) ∧
      (∀ f, s.din = .num f → f ≤ 0 → exec i s = .refused (.outOfContract .badFrequency))) ∧
    ((s.din = .notNum → exec .advance s = .refused (.outOfContract .badNum)) ∧
      (∀ d, s.din = .num d → d ≤ 0 → exec .advance s = .refused (.outOfContract .badDelta))) ∧
    (∀ j, s.cap ≤ j → exec (.sample j) s = .refused (.outOfContract .slotRange) ∧
      exec (.readVoice j) s = .refused (.outOfContract .slotRange)) ∧
    (∀ j < s.cap, s.din = .notNum → exec (.sample j) s = .refused (.outOfContract .badNum))

/-- 30_encoding.md R76: READ_VOICE ignores `DIN`, whatever NUM_ENC makes of the pattern, and the other four commands are
refused with RF8 on a pattern that encodes no Num (decision D24; log 8). -/
def Obligations.PatternThatEncodesNoNum : Prop :=
  ∀ (e : NumEnc) (b : Pattern) (s : State) (j : Nat), e.numOf b = none → s.din = readPort e b → j < s.cap →
    (∀ i ∈ [Instr.noteOn, .noteOff, .advance, .sample j], exec i s = .refused (.outOfContract .badNum)) ∧
    ∃ t, exec (.readVoice j) s = .next t

/-! ## The VoicePool commands -/

/-- 40_voice_pool.md R103, the whole of NOTE_ON: its words, its refusal, the slot it takes and what it leaves there, the
dropped note, and nothing else changed. The rule takes in the spec's decisions D4, D5 (the word), D8, D9 (the order of the
search), D11 (the refusal), D16 (no stealing). -/
def Obligations.NoteOnBindsRetriggersOrDrops : Prop :=
  (∀ (n : Nat) (w : Word), wordOp w = 9 → decode n w =
    if wordRsvd w ≠ 0 then .error .reservedBits else if wordSlot w ≠ 0 then .error .slotNotZero else .ok .noteOn) ∧
  ∀ (s : State) (f : ℚ), s.din = .num f →
    (f ≤ 0 → exec .noteOn s = .refused (.outOfContract .badFrequency)) ∧
    (0 < f →
      (∀ j < s.cap, (s.V j).freq = f → (∀ k < j, (s.V k).freq ≠ f) →
        exec .noteOn s = .next { s with
          slots := s.slots.set j { phase := .attack, elapsed := 0, rel := 0, freq := f }, out := .nothing }) ∧
      (∀ j < s.cap, (∀ k < s.cap, (s.V k).freq ≠ f) → (s.V j).phase = .off → (∀ k < j, (s.V k).phase ≠ .off) →
        exec .noteOn s = .next { s with
          slots := s.slots.set j { phase := .attack, elapsed := 0, rel := 0, freq := f }, out := .nothing }) ∧
      ((∀ k < s.cap, (s.V k).freq ≠ f ∧ (s.V k).phase ≠ .off) →
        exec .noteOn s = .next { s with out := .nothing }))

/-- 40_voice_pool.md R106: NOTE_ON of the frequency of a slot in Attack, Decay, Sustain or Release restarts that slot and
no other, and the next SAMPLE of it gives 0 when `CFG_ATTACK > 0` (that last sentence is the spec's inference from
R103 and R143). That one slot at most is bound to the frequency is the invariant. -/
def Obligations.RetriggerRestartsTheSameSlot : Prop :=
  ∀ (s : State) (j : Nat), s.Inv → j < s.cap → (s.V j).phase ≠ .off → s.din = .num (s.V j).freq →
    ∃ t, exec .noteOn s = .next t ∧
      t.V j = { phase := .attack, elapsed := 0, rel := 0, freq := (s.V j).freq } ∧
      (∀ k, k ≠ j → t.V k = s.V k) ∧
      (0 < s.cfgAttack → ∀ x, ∃ u, exec (.sample j) { t with din := .num x } = .next u ∧ u.out = .dout 0)

/-- 40_voice_pool.md R108, the whole of NOTE_OFF: its words, its refusal, the slot it releases and what it leaves there,
the no-op, and nothing else changed. The rule takes in the spec's decisions D4, D5 (the word), D10 (the held phases), D11
(the refusal). -/
def Obligations.NoteOffReleasesTheHeldSlotOrDoesNothing : Prop :=
  (∀ (n : Nat) (w : Word), wordOp w = 8 → decode n w =
    if wordRsvd w ≠ 0 then .error .reservedBits else if wordSlot w ≠ 0 then .error .slotNotZero else .ok .noteOff) ∧
  ∀ (s : State) (f : ℚ), s.din = .num f →
    (f ≤ 0 → exec .noteOff s = .refused (.outOfContract .badFrequency)) ∧
    (0 < f →
      (∀ j < s.cap, (s.V j).freq = f → (s.V j).phase ∈ [.attack, .decay, .sustain] →
        (∀ k < j, (s.V k).freq = f → (s.V k).phase ∉ [.attack, .decay, .sustain]) →
        exec .noteOff s = .next { s with
          slots := s.slots.set j { s.V j with rel := (s.V j).elapsed, phase := .release }, out := .nothing }) ∧
      ((∀ k < s.cap, (s.V k).freq = f → (s.V k).phase ∉ [.attack, .decay, .sustain]) →
        exec .noteOff s = .next { s with out := .nothing }))

/-- 40_voice_pool.md R109: `NOTE_OFF f; NOTE_OFF f` has the same effect as one `NOTE_OFF f` (decision D10). That one slot
at most is bound to `f` is R33 (a). -/
def Obligations.SecondNoteOffChangesNothing : Prop :=
  ∀ (s : State) (f : ℚ), s.uniqueFreq → s.din = .num f → 0 < f →
    ∃ t, exec .noteOff s = .next t ∧ exec .noteOff t = .next t

/-- 40_voice_pool.md R110: NOTE_OFF completes and leaves every slot's `freq` unchanged. -/
def Obligations.NoteOffKeepsEveryFrequency : Prop :=
  ∀ (s : State) (f : ℚ), s.din = .num f → 0 < f →
    ∃ t, exec .noteOff s = .next t ∧ ∀ k, (t.V k).freq = (s.V k).freq

/-- 40_voice_pool.md R112, the whole of ADVANCE: its words, its refusal, the time of every sounding slot, and nothing else
changed. The rule takes in the spec's decisions D4, D5 (the word), D11 (the refusal). -/
def Obligations.AdvanceMovesEverySoundingSlot : Prop :=
  (∀ (n : Nat) (w : Word), wordOp w = 1 → decode n w =
    if wordRsvd w ≠ 0 then .error .reservedBits else if wordSlot w ≠ 0 then .error .slotNotZero else .ok .advance) ∧
  ∀ (s : State) (d : ℚ), s.din = .num d →
    (d ≤ 0 → exec .advance s = .refused (.outOfContract .badDelta)) ∧
    (0 < d → ∃ t, exec .advance s = .next t ∧
      t = { s with slots := t.slots, out := .nothing } ∧ t.cap = s.cap ∧
      ∀ k < s.cap,
        ((s.V k).phase = .off → t.V k = s.V k) ∧
        ((s.V k).phase ≠ .off → t.V k = { s.V k with elapsed := (s.V k).elapsed + d }))

/-- 40_voice_pool.md R112 (in ℚ, `elapsed` never wraps) over a run: ADVANCEs add up exactly and make no transition
(70_reset_and_hazards.md R218; vectors AD-3, AD-4, AD-7). -/
def Obligations.AdvancesAddUpExactly : Prop :=
  ∀ (s : State) (ds : List ℚ), s.refused = none → (∀ d ∈ ds, 0 < d) →
    ∃ t rs, runInputs (ds.map (input .advance)) s = .next (t, rs) ∧ t.cap = s.cap ∧
      ∀ k < s.cap,
        ((s.V k).phase = .off → t.V k = s.V k) ∧
        ((s.V k).phase ≠ .off → t.V k = { s.V k with elapsed := (s.V k).elapsed + ds.sum })

/-- 40_voice_pool.md R114 and 20_memory.md R55: READ_VOICE reports the four fields of the slot, changes nothing, and
repeated gives the same (phase codes of 10_state.md R22: decision D18; READ_VOICE: D17). -/
def Obligations.ReadVoiceReportsTheSlot : Prop :=
  ∀ (s : State) (j : Nat), j < s.cap → ∃ t ph,
    exec (.readVoice j) s = .next t ∧
    t = { s with out := .vout ph (s.V j).elapsed (s.V j).rel (s.V j).freq } ∧
    ((s.V j).phase = .off → ph = 0b000#3) ∧ ((s.V j).phase = .attack → ph = 0b001#3) ∧
    ((s.V j).phase = .decay → ph = 0b010#3) ∧ ((s.V j).phase = .sustain → ph = 0b011#3) ∧
    ((s.V j).phase = .release → ph = 0b100#3) ∧
    exec (.readVoice j) t = .next t

/-! ## SAMPLE -/

/-- 41_envelope.md R143: the Attack branch, its end under the normative `P_CASCADE = false`; and the guard `CFG_ATTACK > 0`
changes no result, since `elapsed >= 0` (that last sentence is the spec's inference from R33). -/
def Obligations.SampleInAttackRampsThenEntersDecay : Prop :=
  ∀ (s : State) (j : Nat) (x : ℚ), j < s.cap → s.din = .num x → (s.V j).phase = .attack →
    (0 < s.cfgAttack ∧ (s.V j).elapsed < s.cfgAttack → exec (.sample j) s = .next { s with
      slots := s.slots.set j { s.V j with phase := .attack }, out := .dout (x * ((s.V j).elapsed / s.cfgAttack)) }) ∧
    (s.cascade = false → ¬ (0 < s.cfgAttack ∧ (s.V j).elapsed < s.cfgAttack) → exec (.sample j) s = .next { s with
      slots := s.slots.set j { s.V j with phase := .decay }, out := .dout x }) ∧
    (0 ≤ (s.V j).elapsed →
      ((0 < s.cfgAttack ∧ (s.V j).elapsed < s.cfgAttack) ↔ (s.V j).elapsed < s.cfgAttack))

/-- 41_envelope.md R144: the Decay branch under `P_CASCADE = false`: gain 1, one SAMPLE long, whatever `CFG_DECAY` is. -/
def Obligations.SampleInDecayPassesThroughOnce : Prop :=
  ∀ (s : State) (j : Nat) (x : ℚ), j < s.cap → s.din = .num x → (s.V j).phase = .decay → s.cascade = false →
    exec (.sample j) s = .next { s with
      slots := s.slots.set j { s.V j with phase := .sustain }, out := .dout x }

/-- 41_envelope.md R145: the Sustain branch; and only a NOTE_OFF or NOTE_ON of the slot's own frequency ends Sustain. -/
def Obligations.SustainLastsUntilANoteReachesIt : Prop :=
  (∀ (s : State) (j : Nat) (x : ℚ), j < s.cap → s.din = .num x → (s.V j).phase = .sustain →
    exec (.sample j) s = .next { s with out := .dout (x * s.cfgSustain) }) ∧
  (∀ (i : Instr) (s t : State) (k : Nat), exec i s = .next t → (s.V k).phase = .sustain → (t.V k).phase ≠ .sustain →
    (i = .noteOff ∨ i = .noteOn) ∧ s.din = .num (s.V k).freq)

/-- 41_envelope.md R146: the Release branch; the fade starts from `CFG_SUSTAIN`; the guard `CFG_RELEASE > 0` changes no
result, since progress is not negative (the spec's inference from R33). -/
def Obligations.SampleInReleaseFadesToOff : Prop :=
  ∀ (s : State) (j : Nat) (x p : ℚ), j < s.cap → s.din = .num x → (s.V j).phase = .release →
    p = (s.V j).elapsed - (s.V j).rel →
    (0 < s.cfgRelease ∧ p < s.cfgRelease → exec (.sample j) s =
      .next { s with out := .dout (x * s.cfgSustain * (1 - p / s.cfgRelease)) }) ∧
    (¬ (0 < s.cfgRelease ∧ p < s.cfgRelease) → exec (.sample j) s = .next { s with
      slots := s.slots.set j { s.V j with phase := .off }, out := .dout 0 }) ∧
    (p = 0 → 0 < s.cfgRelease → exec (.sample j) s = .next { s with out := .dout (x * s.cfgSustain) }) ∧
    (0 ≤ p → ((0 < s.cfgRelease ∧ p < s.cfgRelease) ↔ p < s.cfgRelease))

/-- 41_envelope.md R147: SAMPLE of an Off slot gives 0 and changes no state (decision D26). -/
def Obligations.SampleOfAnOffSlotIsSilent : Prop :=
  ∀ (s : State) (j : Nat) (x : ℚ), j < s.cap → s.din = .num x → (s.V j).phase = .off →
    exec (.sample j) s = .next { s with out := .dout 0 }

/-- 41_envelope.md R150: with `P_CASCADE = true` the SAMPLE that ends Attack, and SAMPLE in Decay, go to Sustain with gain
`CFG_SUSTAIN` (decision D14). -/
def Obligations.CascadeGoesStraightToSustain : Prop :=
  ∀ (s : State) (j : Nat) (x : ℚ), j < s.cap → s.din = .num x → s.cascade = true →
    ((s.V j).phase = .attack ∧ ¬ (0 < s.cfgAttack ∧ (s.V j).elapsed < s.cfgAttack)) ∨ (s.V j).phase = .decay →
    exec (.sample j) s = .next { s with
      slots := s.slots.set j { s.V j with phase := .sustain }, out := .dout (x * s.cfgSustain) }

/-- 41_envelope.md R148: SAMPLE completes for every legal slot and every Num, writes that slot's `phase` and no other
state, and places one result on `DOUT`. -/
def Obligations.SampleWritesOnlyThePhase : Prop :=
  ∀ (s : State) (j : Nat) (x : ℚ), j < s.cap → s.din = .num x →
    ∃ ph y, exec (.sample j) s = .next { s with slots := s.slots.set j { s.V j with phase := ph }, out := .dout y }

/-- 41_envelope.md R140 with R150: the transitions SAMPLE makes, and no others. -/
def Obligations.SampleMakesOnlyTheListedTransitions : Prop :=
  ∀ (s t : State) (j : Nat), exec (.sample j) s = .next t → (t.V j).phase ≠ (s.V j).phase →
    ((s.V j).phase = .attack ∧ (t.V j).phase = .decay ∧ s.cascade = false) ∨
    ((s.V j).phase = .attack ∧ (t.V j).phase = .sustain ∧ s.cascade = true) ∨
    ((s.V j).phase = .decay ∧ (t.V j).phase = .sustain) ∨
    ((s.V j).phase = .release ∧ (t.V j).phase = .off)

/-- 41_envelope.md R151: the output is the raw sample times a gain that does not depend on it; and in every state that
meets the invariant the gain lies between 0 and 1, so the output is no larger than the raw sample. -/
def Obligations.OutputIsRawTimesABoundedGain : Prop :=
  ∀ (s : State) (j : Nat), j < s.cap →
    (∀ x, s.din = .num x → ∃ t, exec (.sample j) s = .next t ∧ t.out = .dout (x * gain s (s.V j))) ∧
    (s.Inv → 0 ≤ gain s (s.V j) ∧ gain s (s.V j) ≤ 1 ∧ ∀ x, |x * gain s (s.V j)| ≤ |x|)

/-- 70_reset_and_hazards.md R219, 10_state.md R32: SAMPLE never reads `freq`, so a raw sample made for another frequency
passes unseen. -/
def Obligations.SampleNeverReadsTheFrequency : Prop :=
  ∀ (s : State) (j : Nat) (h : ℚ → ℚ),
    exec (.sample j) { s with slots := s.slots.map fun v => { v with freq := h v.freq } } =
      mapNext (fun t => { t with slots := t.slots.map fun v => { v with freq := h v.freq } }) (exec (.sample j) s)

/-! ## Frames and rules of the whole machine -/

/-- A command that completes changes nothing but slots and the result ports (10_state.md R32, R26). -/
def Obligations.CommandsTouchOnlySlotsAndResult : Prop :=
  ∀ (i : Instr) (s t : State), exec i s = .next t →
    t.cap = s.cap ∧ t = { s with slots := t.slots, out := t.out }

/-- The access matrix of 10_state.md R32: which commands may write which field, SAMPLE in its own slot only. -/
def Obligations.FieldsWrittenByTheirCommandsOnly : Prop :=
  ∀ (i : Instr) (s t : State) (k : Nat), exec i s = .next t →
    (i ≠ .noteOn → (t.V k).freq = (s.V k).freq) ∧
    (i ≠ .noteOn → i ≠ .noteOff → (t.V k).rel = (s.V k).rel) ∧
    (i ≠ .noteOn → i ≠ .advance → (t.V k).elapsed = (s.V k).elapsed) ∧
    ((t.V k).phase ≠ (s.V k).phase → i = .noteOn ∨ i = .noteOff ∨ i = .sample k)

/-- NOTE_ON and NOTE_OFF leave every slot but the one they take as it was (40_voice_pool.md R103, R111). The slot taken is
the one the meaning computes. -/
def Obligations.NotesChangeOnlyTheirTargetSlot : Prop :=
  ∀ (s t : State) (f : ℚ) (k : Nat), s.din = .num f →
    (exec .noteOn s = .next t → noteOnTarget s f ≠ some k → t.V k = s.V k) ∧
    (exec .noteOff s = .next t → noteOffTarget s f ≠ some k → t.V k = s.V k)

/-- 10_state.md R34: a phase moves only forward in the order Attack, Decay, Sustain, Release, Off, but for NOTE_ON, which
starts a new lifecycle at Attack. -/
def Obligations.PhasesMoveForwardUntilANewNote : Prop :=
  ∀ (i : Instr) (s t : State) (k : Nat), exec i s = .next t →
    (i ≠ .noteOn → (s.V k).phase.rank ≤ (t.V k).phase.rank) ∧
    (i = .noteOn → t.V k = s.V k ∨ (t.V k).phase = .attack)

/-- 10_state.md R23: but for a new note, `elapsed` never decreases, and it stays while the slot is Off. -/
def Obligations.ElapsedOnlyGrowsUntilANewNote : Prop :=
  ∀ (i : Instr) (s t : State) (k : Nat), exec i s = .next t → i ≠ .noteOn →
    (s.V k).elapsed ≤ (t.V k).elapsed ∧ ((s.V k).phase = .off → (t.V k).elapsed = (s.V k).elapsed)

/-- 41_envelope.md R152: a slot in Release becomes Off only through a SAMPLE of it that finds its fade over, and NOTE_ON
rebinds it only by its own frequency. -/
def Obligations.ReleasingSlotFreedOnlyByItsSample : Prop :=
  ∀ (i : Instr) (s t : State) (k : Nat), s.Inv → exec i s = .next t → k < s.cap → (s.V k).phase = .release →
    ((t.V k).phase = .off → i = .sample k ∧ s.cfgRelease ≤ (s.V k).elapsed - (s.V k).rel) ∧
    (i = .noteOn → t.V k ≠ s.V k → s.din = .num (s.V k).freq)

/-- 10_state.md R27: two runs of the same commands that differ only in `CFG_DECAY` give the same results and the same
slots, refusals included (decision D15). -/
def Obligations.DecayIsNeverRead : Prop :=
  ∀ (cs : List HostInput) (s : State) (d : ℚ), (∀ c ∈ cs, ∃ w v, c = .command w v) →
    runInputs cs { s with cfgDecay := d } =
      mapNext (fun r => ({ r.1 with cfgDecay := d }, r.2)) (runInputs cs s)

/-! ## Sequences of commands -/

/-- 40_voice_pool.md R117: `N + 1` notes on distinct frequencies fill an idle pool in slot order and the last is dropped,
where no slot holds one of the frequencies from before. -/
def Obligations.PoolFillsInOrderAndDropsTheLast : Prop :=
  ∀ (s : State) (fs : List ℚ) (g : ℚ), s.refused = none → fs.length = s.cap →
    (∀ k < s.cap, (s.V k).phase = .off ∧ (s.V k).freq ∉ g :: fs) → (∀ f ∈ g :: fs, 0 < f) → (g :: fs).Nodup →
    ∃ t rs, runInputs ((fs ++ [g]).map (input .noteOn)) s = .next (t, rs) ∧ t.cap = s.cap ∧
      ∀ k < s.cap, t.V k = { phase := .attack, elapsed := 0, rel := 0, freq := fs.getD k 0 }

/-- 40_voice_pool.md R117, last two sentences: whatever frequencies the Off slots still hold, each of the `N` notes gets a
slot and the last is dropped. -/
def Obligations.PoolFillsWhateverStaleFrequencies : Prop :=
  ∀ (s : State) (fs : List ℚ) (g : ℚ), s.uniqueFreq → s.refused = none → fs.length = s.cap →
    (∀ k < s.cap, (s.V k).phase = .off) → (∀ f ∈ g :: fs, 0 < f) → (g :: fs).Nodup →
    ∃ t rs, runInputs ((fs ++ [g]).map (input .noteOn)) s = .next (t, rs) ∧ t.cap = s.cap ∧
      (∀ f ∈ fs, ∃ k < s.cap, t.V k = { phase := .attack, elapsed := 0, rel := 0, freq := f }) ∧
      (∀ k < s.cap, (t.V k).freq ≠ g)

/-- 30_encoding.md R83: FRAME over all slots leaves the same state and gives the same sum as the frame that samples only
the sounding slots (decision D28). -/
def Obligations.FrameOverAllSlotsEqualsSoundingFrame : Prop :=
  ∀ (s : State) (d : ℚ) (raw : Nat → ℚ), s.refused = none → s.cap ≤ 256 → 0 < d →
    ∃ t rs rs', runInputs (frameInputs s.cap d raw) s = .next (t, rs) ∧
      runInputs (soundingFrame s d raw) s = .next (t, rs') ∧ sumDout rs = sumDout rs'

/-- 30_encoding.md R84: SCAN reports every slot, Off ones too, in ascending order, and changes no slot (decision D28). -/
def Obligations.ScanReportsEverySlot : Prop :=
  ∀ s : State, s.refused = none → s.cap ≤ 256 →
    ∃ t, runInputs (scanInputs s.cap) s = .next (t, s.slots.map fun v => .vout v.phase.code v.elapsed v.rel v.freq) ∧
      t.slots = s.slots

/-- 70_reset_and_hazards.md R217: three SAMPLEs of a slot whose attack is over, with no ADVANCE between them, run Attack,
Decay, Sustain, under `P_CASCADE = false` (vector SA-20). -/
def Obligations.RepeatedSamplesRunThroughDecay : Prop :=
  ∀ (s : State) (j : Nat) (x : ℚ), s.refused = none → s.cap ≤ 256 → j < s.cap → s.cascade = false →
    (s.V j).phase = .attack → s.cfgAttack ≤ (s.V j).elapsed →
    ∃ t, runInputs (List.replicate 3 (input (.sample j) x)) s =
        .next (t, [.dout x, .dout x, .dout (x * s.cfgSustain)]) ∧
      t.slots = s.slots.set j { s.V j with phase := .sustain }

/-- 70_reset_and_hazards.md R215, R216: a slot triggered and then advanced before its first SAMPLE is sampled one step
late: the ramp value at `delta`, not at 0. -/
def Obligations.AdvanceBeforeTheFirstSampleIsOneStepLate : Prop :=
  ∀ (s : State) (j : Nat) (f d x : ℚ), s.Inv → s.refused = none → j < s.cap → 0 < f → (s.V j).freq = f → 0 < d →
    d < s.cfgAttack →
    (∃ t, runInputs [input .noteOn f, input (.sample j) x] s = .next (t, [.nothing, .dout 0])) ∧
    (∃ t, runInputs [input .noteOn f, input .advance d, input (.sample j) x] s =
      .next (t, [.nothing, .nothing, .dout (x * (d / s.cfgAttack))]))

/-- 41_envelope.md R153: NOTE_OFF during the attack ramp takes the gain from the ramp value to `CFG_SUSTAIN` times the
fade, here at once and after one time step (90_conflicts.md C3). -/
def Obligations.ReleaseDuringAttackJumpsToTheFade : Prop :=
  ∀ (s : State) (j : Nat) (d x : ℚ), s.Inv → s.refused = none → j < s.cap → (s.V j).phase = .attack →
    0 < d → d < s.cfgRelease →
    (∃ t, runInputs [input .noteOff (s.V j).freq, input (.sample j) x] s =
      .next (t, [.nothing, .dout (x * s.cfgSustain)])) ∧
    (∃ t, runInputs [input .noteOff (s.V j).freq, input .advance d, input (.sample j) x] s =
      .next (t, [.nothing, .nothing, .dout (x * s.cfgSustain * (1 - d / s.cfgRelease))]))

/-- 30_encoding.md R85: the two upstream events the source defines become NOTE_ON and NOTE_OFF with the host's frequency
on `DIN`, and no other status becomes a command. -/
def Obligations.UpstreamEventsBecomeNoteCommands : Prop :=
  ∀ (h : HostParams) (p x : BitVec 8),
    eventInput h 0x90#8 p x = some (.command 0x90000000#32 (.num (h.freqOf p))) ∧
    eventInput h 0x80#8 p x = some (.command 0x80000000#32 (.num (h.freqOf p))) ∧
    ∀ st, st ≠ 0x90#8 → st ≠ 0x80#8 → eventInput h st p x = none

/-! ## Parameters of the ports and of the host -/

/-- 00_scope.md R8, R214 H5 and H7: a host whose `SAMPLE_RATE` and `FREQ_OF` are in their legal ranges stays in the
contract: every command it makes of an event, and every frame it issues, completes, with one shaped sample for each
sounding slot and none for the ADVANCE. The command of a pitch whose frequency is outside the range is refused with RF5
(decision D11). -/
def Obligations.HostInItsRangesStaysInContract : Prop :=
  ∀ (h : HostParams) (s : State), s.refused = none → s.cap ≤ 256 →
    (h.legal →
      (∀ st p x i, eventInput h st p x = some i → ∃ t, applyInput i s = .next t) ∧
      (∀ (osc : ℚ → ℚ → ℚ) (now : ℚ), ∃ (t : State) (ys : List ℚ), runInputs (hostFrame h osc now s) s =
          .next (t, ys.map .dout ++ [.nothing]) ∧
        ys.length = (s.slots.filter fun v => v.phase ≠ .off).length)) ∧
    (∀ st p x i, h.freqOf p ≤ 0 → eventInput h st p x = some i →
      applyInput i s = .refused (.outOfContract .badFrequency))

/-- 00_scope.md R8 (`NUM_ENC`, any injective encoding) with 10_state.md R35, 30_encoding.md R76 and R79: under every legal
encoding no two Nums share a pattern, and at the ports SAMPLE takes its Num from the pattern on `DIN`, does what it does
with that Num, and puts the pattern of the shaped sample on `DOUT`; and READ_VOICE puts the patterns of the slot's three
Nums on `VOUT`, whatever pattern stands on `DIN` (decisions D7, D24; patterns as bit strings, and no pattern for a Num the
encoding does not hold: log 16). -/
def Obligations.PortsCarryNumsInTheEncoding : Prop :=
  ∀ (e : NumEnc) (s : State) (j : Nat), e.legal → s.refused = none → s.cap ≤ 256 → j < s.cap →
    (∀ v w b, e.bitsOf v = some b → e.bitsOf w = some b → v = w) ∧
    (∀ x b, e.bitsOf x = some b → ∃ t, applyInput (input (.sample j) x) s = .next t ∧
      runPins e [.command (encode (.sample j)) b] s = .next (t, [.dout (e.bitsOf (x * gain s (s.V j)))])) ∧
    (∀ b, ∃ t, t.slots = s.slots ∧ runPins e [.command (encode (.readVoice j)) b] s =
      .next (t, [.vout (s.V j).phase.code (e.bitsOf (s.V j).elapsed) (e.bitsOf (s.V j).rel) (e.bitsOf (s.V j).freq)]))

/-- 00_scope.md R8: the choice of `NUM_ENC` changes no state. Two blocks with the same parameters but for a legal encoding,
given the same commands with Nums that both encodings hold, both stop for the same reason or both reach the same state
with results that encode the same Nums (decision D7). -/
def Obligations.EncodingOfThePortsChangesNoState : Prop :=
  ∀ (c c' : VaegParams) (xs : List (Instr × ℚ)) (is is' : List PinInput),
    c.block = c'.block → c.numEnc.legal → c'.numEnc.legal →
    xs.map (fun x => pinInput c.numEnc x.1 x.2) = is.map some →
    xs.map (fun x => pinInput c'.numEnc x.1 x.2) = is'.map some →
    (∃ r, runBlock c is = .refused r ∧ runBlock c' is' = .refused r) ∨
    ∃ (t : State) (rs : List Result), runBlock c is = .next (t, rs.map (driveResult c.numEnc)) ∧
      runBlock c' is' = .next (t, rs.map (driveResult c'.numEnc))
end

