-- ==== Sys2Proof/Laws/Decode.lean ====
section
/-!
SUPPORT. The fields of a command word, as numbers, and what decoding does with them.
-/

namespace Sys2Proof

open Sys2Proof.Machine

theorem opField_toNat (w : Word) : (opField w).toNat = wordOp w := by
  have := w.isLt
  simp only [opField, wordOp, BitVec.extractLsb'_toNat, Nat.shiftRight_eq_div_pow]
  omega

theorem rsvdField_toNat (w : Word) : (rsvdField w).toNat = wordRsvd w := by
  simp only [rsvdField, wordRsvd, BitVec.extractLsb'_toNat, Nat.shiftRight_eq_div_pow]

theorem slotField_eq (w : Word) : slotField w = wordSlot w := by
  simp [slotField, wordSlot, BitVec.extractLsb'_toNat]

theorem slotField_lt (w : Word) : slotField w < 256 := by
  rw [slotField_eq]; exact Nat.mod_lt _ (by decide)

theorem rsvdField_eq_zero (w : Word) : rsvdField w = 0 ↔ wordRsvd w = 0 := by
  rw [← rsvdField_toNat, ← BitVec.toNat_inj]; rfl

/-- A word is its three fields. -/
theorem word_of_fields (w : Word) : w.toNat = wordOp w * 2 ^ 28 + wordRsvd w * 2 ^ 8 + wordSlot w := by
  have := w.isLt
  simp only [wordOp, wordRsvd, wordSlot]
  omega

/-- The opcode map, on the opcode's number. -/
theorem instrOf_eq (w : Word) (s : Nat) : instrOf (opField w) s =
    if wordOp w = 1 then some .advance
    else if wordOp w = 2 then some (.sample s)
    else if wordOp w = 3 then some (.readVoice s)
    else if wordOp w = 8 then some .noteOff
    else if wordOp w = 9 then some .noteOn
    else none := by
  simp only [instrOf, ← BitVec.toNat_inj, opField_toNat]
  rfl

/-- The value of an encoded word. -/
theorem encode_toNat (i : Instr) (h : i.slotFits = true) :
    (encode i).toNat = i.opcode.toNat * 2 ^ 28 + (i.slot?.getD 0) := by
  have key : ∀ (a s : Nat), a < 16 → s < 256 →
      (BitVec.ofNat 32 (a * 2 ^ 28) ||| BitVec.ofNat 32 s).toNat = a * 2 ^ 28 + s := by
    intro a s ha hs
    rw [BitVec.toNat_or, BitVec.toNat_ofNat, BitVec.toNat_ofNat, Nat.mod_eq_of_lt (by omega),
      Nat.mod_eq_of_lt (by omega), ← Nat.shiftLeft_eq, Nat.shiftLeft_add_eq_or_of_lt (by omega)]
  cases i with
  | advance => rfl
  | noteOff => rfl
  | noteOn => rfl
  | sample s => exact key 2 s (by decide) (of_decide_eq_true h)
  | readVoice s => exact key 3 s (by decide) (of_decide_eq_true h)

end Sys2Proof
end

