-- ==== Sys2Proof/Laws/State.lean ====
section
/-!
SUPPORT. One lemma per field per update of State, so that no proof unfolds a record update.
-/

namespace Sys2Proof.Machine

/-! ### setSlot -/

@[simp] theorem State.setSlot_cfgAttack (s : State) (i : Nat) (v : Slot) : (s.setSlot i v).cfgAttack = s.cfgAttack := rfl
@[simp] theorem State.setSlot_cfgDecay (s : State) (i : Nat) (v : Slot) : (s.setSlot i v).cfgDecay = s.cfgDecay := rfl
@[simp] theorem State.setSlot_cfgSustain (s : State) (i : Nat) (v : Slot) : (s.setSlot i v).cfgSustain = s.cfgSustain := rfl
@[simp] theorem State.setSlot_cfgRelease (s : State) (i : Nat) (v : Slot) : (s.setSlot i v).cfgRelease = s.cfgRelease := rfl
@[simp] theorem State.setSlot_slots (s : State) (i : Nat) (v : Slot) : (s.setSlot i v).slots = s.slots.set i v := rfl
@[simp] theorem State.setSlot_cascade (s : State) (i : Nat) (v : Slot) : (s.setSlot i v).cascade = s.cascade := rfl
@[simp] theorem State.setSlot_refused (s : State) (i : Nat) (v : Slot) : (s.setSlot i v).refused = s.refused := rfl
@[simp] theorem State.setSlot_cmd (s : State) (i : Nat) (v : Slot) : (s.setSlot i v).cmd = s.cmd := rfl
@[simp] theorem State.setSlot_din (s : State) (i : Nat) (v : Slot) : (s.setSlot i v).din = s.din := rfl
@[simp] theorem State.setSlot_out (s : State) (i : Nat) (v : Slot) : (s.setSlot i v).out = s.out := rfl
@[simp] theorem State.setSlot_pending (s : State) (i : Nat) (v : Slot) : (s.setSlot i v).pending = s.pending := rfl

/-! ### emit -/

@[simp] theorem State.emit_cfgAttack (s : State) (r : Result) : (s.emit r).cfgAttack = s.cfgAttack := rfl
@[simp] theorem State.emit_cfgDecay (s : State) (r : Result) : (s.emit r).cfgDecay = s.cfgDecay := rfl
@[simp] theorem State.emit_cfgSustain (s : State) (r : Result) : (s.emit r).cfgSustain = s.cfgSustain := rfl
@[simp] theorem State.emit_cfgRelease (s : State) (r : Result) : (s.emit r).cfgRelease = s.cfgRelease := rfl
@[simp] theorem State.emit_slots (s : State) (r : Result) : (s.emit r).slots = s.slots := rfl
@[simp] theorem State.emit_cascade (s : State) (r : Result) : (s.emit r).cascade = s.cascade := rfl
@[simp] theorem State.emit_refused (s : State) (r : Result) : (s.emit r).refused = s.refused := rfl
@[simp] theorem State.emit_cmd (s : State) (r : Result) : (s.emit r).cmd = s.cmd := rfl
@[simp] theorem State.emit_din (s : State) (r : Result) : (s.emit r).din = s.din := rfl
@[simp] theorem State.emit_out (s : State) (r : Result) : (s.emit r).out = r := rfl
@[simp] theorem State.emit_pending (s : State) (r : Result) : (s.emit r).pending = s.pending := rfl

/-! ### present -/

@[simp] theorem State.present_cfgAttack (s : State) (w : Word) (d : DataIn) (rest : List HostInput) : (s.present w d rest).cfgAttack = s.cfgAttack := rfl
@[simp] theorem State.present_cfgDecay (s : State) (w : Word) (d : DataIn) (rest : List HostInput) : (s.present w d rest).cfgDecay = s.cfgDecay := rfl
@[simp] theorem State.present_cfgSustain (s : State) (w : Word) (d : DataIn) (rest : List HostInput) : (s.present w d rest).cfgSustain = s.cfgSustain := rfl
@[simp] theorem State.present_cfgRelease (s : State) (w : Word) (d : DataIn) (rest : List HostInput) : (s.present w d rest).cfgRelease = s.cfgRelease := rfl
@[simp] theorem State.present_slots (s : State) (w : Word) (d : DataIn) (rest : List HostInput) : (s.present w d rest).slots = s.slots := rfl
@[simp] theorem State.present_cascade (s : State) (w : Word) (d : DataIn) (rest : List HostInput) : (s.present w d rest).cascade = s.cascade := rfl
@[simp] theorem State.present_refused (s : State) (w : Word) (d : DataIn) (rest : List HostInput) : (s.present w d rest).refused = s.refused := rfl
@[simp] theorem State.present_cmd (s : State) (w : Word) (d : DataIn) (rest : List HostInput) : (s.present w d rest).cmd = w := rfl
@[simp] theorem State.present_din (s : State) (w : Word) (d : DataIn) (rest : List HostInput) : (s.present w d rest).din = d := rfl
@[simp] theorem State.present_out (s : State) (w : Word) (d : DataIn) (rest : List HostInput) : (s.present w d rest).out = s.out := rfl
@[simp] theorem State.present_pending (s : State) (w : Word) (d : DataIn) (rest : List HostInput) : (s.present w d rest).pending = rest := rfl

/-! ### issue -/

@[simp] theorem State.issue_cfgAttack (s : State) (w : Word) (d : DataIn) : (s.issue w d).cfgAttack = s.cfgAttack := rfl
@[simp] theorem State.issue_cfgDecay (s : State) (w : Word) (d : DataIn) : (s.issue w d).cfgDecay = s.cfgDecay := rfl
@[simp] theorem State.issue_cfgSustain (s : State) (w : Word) (d : DataIn) : (s.issue w d).cfgSustain = s.cfgSustain := rfl
@[simp] theorem State.issue_cfgRelease (s : State) (w : Word) (d : DataIn) : (s.issue w d).cfgRelease = s.cfgRelease := rfl
@[simp] theorem State.issue_slots (s : State) (w : Word) (d : DataIn) : (s.issue w d).slots = s.slots := rfl
@[simp] theorem State.issue_cascade (s : State) (w : Word) (d : DataIn) : (s.issue w d).cascade = s.cascade := rfl
@[simp] theorem State.issue_refused (s : State) (w : Word) (d : DataIn) : (s.issue w d).refused = s.refused := rfl
@[simp] theorem State.issue_cmd (s : State) (w : Word) (d : DataIn) : (s.issue w d).cmd = s.cmd := rfl
@[simp] theorem State.issue_din (s : State) (w : Word) (d : DataIn) : (s.issue w d).din = s.din := rfl
@[simp] theorem State.issue_out (s : State) (w : Word) (d : DataIn) : (s.issue w d).out = s.out := rfl
@[simp] theorem State.issue_pending (s : State) (w : Word) (d : DataIn) : (s.issue w d).pending = .command w d :: s.pending := rfl

/-! ### idle -/

@[simp] theorem State.idle_cfgAttack (s : State) : (idle s).cfgAttack = s.cfgAttack := rfl
@[simp] theorem State.idle_cfgDecay (s : State) : (idle s).cfgDecay = s.cfgDecay := rfl
@[simp] theorem State.idle_cfgSustain (s : State) : (idle s).cfgSustain = s.cfgSustain := rfl
@[simp] theorem State.idle_cfgRelease (s : State) : (idle s).cfgRelease = s.cfgRelease := rfl
@[simp] theorem State.idle_slots (s : State) : (idle s).slots = s.slots := rfl
@[simp] theorem State.idle_cascade (s : State) : (idle s).cascade = s.cascade := rfl
@[simp] theorem State.idle_refused (s : State) : (idle s).refused = s.refused := rfl
@[simp] theorem State.idle_cmd (s : State) : (idle s).cmd = s.cmd := rfl
@[simp] theorem State.idle_din (s : State) : (idle s).din = s.din := rfl
@[simp] theorem State.idle_out (s : State) : (idle s).out = .nothing := rfl
@[simp] theorem State.idle_pending (s : State) : (idle s).pending = s.pending := rfl

/-! ### The reset state -/

@[simp] theorem State.resetWith_cfgAttack (p : Params) : (State.resetWith p).cfgAttack = p.cfg.attack := rfl
@[simp] theorem State.resetWith_cfgDecay (p : Params) : (State.resetWith p).cfgDecay = p.cfg.decay := rfl
@[simp] theorem State.resetWith_cfgSustain (p : Params) : (State.resetWith p).cfgSustain = p.cfg.sustain := rfl
@[simp] theorem State.resetWith_cfgRelease (p : Params) : (State.resetWith p).cfgRelease = p.cfg.release := rfl
@[simp] theorem State.resetWith_slots (p : Params) : (State.resetWith p).slots = List.replicate p.n Slot.reset := rfl
@[simp] theorem State.resetWith_cascade (p : Params) : (State.resetWith p).cascade = p.cascade := rfl
@[simp] theorem State.resetWith_refused (p : Params) : (State.resetWith p).refused = none := rfl
@[simp] theorem State.resetWith_cmd (p : Params) : (State.resetWith p).cmd = 0 := rfl
@[simp] theorem State.resetWith_din (p : Params) : (State.resetWith p).din = .num 0 := rfl
@[simp] theorem State.resetWith_out (p : Params) : (State.resetWith p).out = .nothing := rfl
@[simp] theorem State.resetWith_pending (p : Params) : (State.resetWith p).pending = [] := rfl

/-! ### The capacity under the updates -/

@[simp] theorem State.cap_setSlot (s : State) (i : Nat) (v : Slot) : (s.setSlot i v).cap = s.cap := by
  simp [State.cap]

@[simp] theorem State.cap_emit (s : State) (r : Result) : (s.emit r).cap = s.cap := rfl

@[simp] theorem State.cap_present (s : State) (w : Word) (d : DataIn) (rest : List HostInput) :
    (s.present w d rest).cap = s.cap := rfl

@[simp] theorem State.cap_idle (s : State) : (idle s).cap = s.cap := rfl

@[simp] theorem State.cap_resetWith (p : Params) : (State.resetWith p).cap = p.n := by
  simp [State.cap]

end Sys2Proof.Machine
end

