-- ==== Sys2Proof/Laws/Ops.lean ====
section
/-!
SUPPORT. What each shared operation does, said once: slot access, the search, the operand checks, reset, and what a
step can do. Later proofs cite these and do not unfold the operations.
-/

namespace Sys2Proof.Machine

/-! ### Slots -/

theorem State.V_of_lt {s : State} {i : Nat} (h : i < s.cap) : s.slots[i]? = some (s.V i) := by
  simp only [State.cap] at h
  simp [State.V, h]

theorem State.V_of_ge {s : State} {i : Nat} (h : s.cap ≤ i) : s.V i = Slot.reset := by
  simp only [State.cap] at h
  simp [State.V, h]

/-- Equal slot files read alike. -/
theorem State.V_congr {s t : State} (h : t.slots = s.slots) (i : Nat) : t.V i = s.V i := by
  simp [State.V, h]

@[simp] theorem State.V_emit (s : State) (r : Result) (i : Nat) : (s.emit r).V i = s.V i := rfl

@[simp] theorem State.V_present (s : State) (w : Word) (d : DataIn) (rest : List HostInput) (i : Nat) :
    (s.present w d rest).V i = s.V i := rfl

/-- A read after a write to the same slot. -/
theorem State.V_setSlot_self {s : State} {i : Nat} (h : i < s.cap) (v : Slot) : (s.setSlot i v).V i = v := by
  simp only [State.cap] at h
  simp [State.V, h]

/-- A write leaves every other slot alone. -/
theorem State.V_setSlot_ne {s : State} {i k : Nat} (h : k ≠ i) (v : Slot) : (s.setSlot i v).V k = s.V k := by
  simp [State.V, List.getElem?_set_ne (Ne.symm h)]

/-- Writing back what a slot holds changes nothing. -/
theorem State.slots_set_V (s : State) (i : Nat) : s.slots.set i (s.V i) = s.slots := by
  apply List.ext_getElem?
  intro k
  by_cases h : i = k
  · subst h
    by_cases hi : i < s.cap
    · rw [State.V_of_lt hi, List.getElem?_set_self (by simpa [State.cap] using hi)]
    · simp only [State.cap, not_lt] at hi
      simp [hi]
  · rw [List.getElem?_set_ne h]

/-- Two slot files of one length whose slots agree are one. -/
theorem State.slots_ext {s t : State} (hc : t.cap = s.cap) (h : ∀ k < s.cap, t.V k = s.V k) : t.slots = s.slots := by
  apply List.ext_getElem?
  intro k
  by_cases hk : k < s.cap
  · rw [State.V_of_lt hk, State.V_of_lt (hc ▸ hk), h k hk]
  · simp only [State.cap, not_lt] at hc hk
    simp [hk, hc]

/-- Every slot of the file under one function. -/
theorem State.V_map {s : State} (g : Slot → Slot) {k : Nat} (h : k < s.cap) :
    State.V { s with slots := s.slots.map g } k = g (s.V k) := by
  simp only [State.cap] at h
  simp [State.V, h]

@[simp] theorem State.V_resetWith (p : Params) (i : Nat) : (State.resetWith p).V i = Slot.reset := by
  by_cases h : i < p.n <;> simp [State.V, h]

/-! ### The search over slots -/

/-- The search answers an index exactly when it is the least that satisfies the condition. -/
theorem State.firstSlot_eq_some {s : State} {p : Slot → Bool} {j : Nat} :
    s.firstSlot p = some j ↔ j < s.cap ∧ p (s.V j) = true ∧ ∀ k < j, p (s.V k) = false := by
  simp only [State.firstSlot, List.findIdx?_eq_some_iff_getElem]
  constructor
  · rintro ⟨h, hp, hl⟩
    refine ⟨h, by simpa [State.V, h] using hp, fun k hk => ?_⟩
    have hk' : k < s.slots.length := by omega
    simpa [State.V, hk'] using hl k hk
  · rintro ⟨h, hp, hl⟩
    simp only [State.cap] at h
    refine ⟨h, by simpa [State.V, h] using hp, fun k hk => ?_⟩
    have hk' : k < s.slots.length := by omega
    simpa [State.V, hk'] using hl k hk

/-- The search fails exactly when no slot satisfies the condition. -/
theorem State.firstSlot_eq_none {s : State} {p : Slot → Bool} :
    s.firstSlot p = none ↔ ∀ k < s.cap, p (s.V k) = false := by
  simp only [State.firstSlot, List.findIdx?_eq_none_iff, List.mem_iff_getElem, forall_exists_index]
  constructor
  · intro h k hk
    simp only [State.cap] at hk
    simpa [State.V, hk] using h _ k hk rfl
  · rintro h x k hk rfl
    simpa [State.V, hk] using h k hk

/-! ### Operands -/

theorem withOperand_ok {α : Type} (a : α) (k : α → Outcome) : withOperand (.ok a) k = k a := rfl

theorem withOperand_error {α : Type} (r : RefusalReason) (k : α → Outcome) :
    withOperand (.error r) k = .refused (.outOfContract r) := rfl

/-- A command with an operand completes only on an operand that passed. -/
theorem withOperand_next {α : Type} {e : Except RefusalReason α} {k : α → Outcome} {t : State}
    (h : withOperand e k = .next t) : ∃ a, e = .ok a ∧ k a = .next t := by
  cases e with
  | ok a    => exact ⟨a, rfl, h⟩
  | error r => cases h

theorem numOperand_ok {d : DataIn} {v : Num} : numOperand d = .ok v ↔ d = .num v := by
  cases d <;> simp [numOperand]

theorem positiveOperand_ok {r : RefusalReason} {d : DataIn} {v : Num} :
    positiveOperand r d = .ok v ↔ d = .num v ∧ 0 < v := by
  cases d with
  | notNum => simp [positiveOperand, numOperand]
  | num u =>
    simp only [positiveOperand, numOperand, DataIn.num.injEq]
    split
    · simp only [Except.ok.injEq]
      exact ⟨fun h => ⟨h, h ▸ ‹_›⟩, fun h => h.1⟩
    · simp only [reduceCtorEq, false_iff, not_and]
      rintro rfl
      assumption

theorem positiveOperand_num {r : RefusalReason} {v : Num} :
    positiveOperand r (.num v) = if 0 < v then .ok v else .error r := rfl

theorem freqOperand_ok {d : DataIn} {f : Num} : freqOperand d = .ok f ↔ d = .num f ∧ 0 < f := positiveOperand_ok

theorem deltaOperand_ok {d : DataIn} {v : Num} : deltaOperand d = .ok v ↔ d = .num v ∧ 0 < v := positiveOperand_ok

theorem slotOperand_ok {s : State} {i : Nat} {v : Slot} : slotOperand s i = .ok v ↔ i < s.cap ∧ v = s.V i := by
  unfold slotOperand
  split
  · simp only [Except.ok.injEq]
    exact ⟨fun h => ⟨‹_›, h.symm⟩, fun h => h.2.symm⟩
  · simp only [reduceCtorEq, false_iff, not_and]
    exact fun h => absurd h ‹_›

theorem slotOperand_of_lt {s : State} {i : Nat} (h : i < s.cap) : slotOperand s i = .ok (s.V i) := if_pos h

theorem slotOperand_of_ge {s : State} {i : Nat} (h : s.cap ≤ i) : slotOperand s i = .error .slotRange :=
  if_neg (by omega)

/-! ### The slots the notes take -/

/-- The slot NOTE_ON takes is bound to the frequency or, when none is, Off; and it is the first such. -/
theorem noteOnTarget_eq_some {s : State} {f : Num} {j : Nat} : noteOnTarget s f = some j ↔
    j < s.cap ∧
      (((s.V j).freq = f ∧ ∀ k < j, (s.V k).freq ≠ f) ∨
        ((∀ k < s.cap, (s.V k).freq ≠ f) ∧ (s.V j).phase = .off ∧ ∀ k < j, (s.V k).phase ≠ .off)) := by
  unfold noteOnTarget
  split
  · rename_i i hi
    rw [State.firstSlot_eq_some] at hi
    simp only [Slot.bound, decide_eq_true_eq, decide_eq_false_iff_not] at hi
    obtain ⟨hic, hif, hil⟩ := hi
    constructor
    · rintro ⟨⟩
      exact ⟨hic, .inl ⟨hif, hil⟩⟩
    · rintro ⟨hj, ⟨hjf, hjl⟩ | ⟨hno, -⟩⟩
      · rcases lt_trichotomy i j with h | h | h
        · exact absurd hif (hjl i h)
        · rw [h]
        · exact absurd hjf (hil j h)
      · exact absurd hif (hno i hic)
  · rename_i hn
    rw [State.firstSlot_eq_none] at hn
    simp only [Slot.bound, decide_eq_false_iff_not] at hn
    rw [State.firstSlot_eq_some]
    simp only [Slot.free, decide_eq_true_eq, decide_eq_false_iff_not]
    constructor
    · rintro ⟨hj, hp, hl⟩
      exact ⟨hj, .inr ⟨hn, hp, hl⟩⟩
    · rintro ⟨hj, ⟨hjf, -⟩ | ⟨-, hp, hl⟩⟩
      · exact absurd hjf (hn j hj)
      · exact ⟨hj, hp, hl⟩

/-- NOTE_ON finds no slot exactly when none is bound to the frequency and none is Off. -/
theorem noteOnTarget_eq_none {s : State} {f : Num} : noteOnTarget s f = none ↔
    ∀ k < s.cap, (s.V k).freq ≠ f ∧ (s.V k).phase ≠ .off := by
  unfold noteOnTarget
  split
  · rename_i i hi
    rw [State.firstSlot_eq_some] at hi
    simp only [Slot.bound, decide_eq_true_eq] at hi
    simp only [reduceCtorEq, false_iff, not_forall]
    exact ⟨i, hi.1, fun h => h.1 hi.2.1⟩
  · rename_i hn
    rw [State.firstSlot_eq_none] at hn
    simp only [Slot.bound, decide_eq_false_iff_not] at hn
    rw [State.firstSlot_eq_none]
    simp only [Slot.free, decide_eq_false_iff_not]
    exact ⟨fun h k hk => ⟨hn k hk, h k hk⟩, fun h k hk => (h k hk).2⟩

theorem Slot.held_eq_true {v : Slot} : v.held = true ↔ v.phase ∈ [Phase.attack, .decay, .sustain] := by
  simp [Slot.held, or_assoc]

/-- The slot NOTE_OFF releases is the first bound to the frequency and held. -/
theorem noteOffTarget_eq_some {s : State} {f : Num} {j : Nat} : noteOffTarget s f = some j ↔
    j < s.cap ∧ (s.V j).freq = f ∧ (s.V j).phase ∈ [Phase.attack, .decay, .sustain] ∧
      ∀ k < j, (s.V k).freq = f → (s.V k).phase ∉ [Phase.attack, .decay, .sustain] := by
  simp only [noteOffTarget, State.firstSlot_eq_some, Slot.bound, Bool.and_eq_true, decide_eq_true_eq,
    Slot.held_eq_true, ← Bool.not_eq_true, and_assoc, not_and]

/-- NOTE_OFF finds no slot exactly when none bound to the frequency is held. -/
theorem noteOffTarget_eq_none {s : State} {f : Num} : noteOffTarget s f = none ↔
    ∀ k < s.cap, (s.V k).freq = f → (s.V k).phase ∉ [Phase.attack, .decay, .sustain] := by
  simp only [noteOffTarget, State.firstSlot_eq_none, Slot.bound, Bool.and_eq_true, decide_eq_true_eq,
    Slot.held_eq_true, ← Bool.not_eq_true, not_and]

theorem Slot.advanced_off {d : Num} {v : Slot} (h : v.phase = .off) : v.advanced d = v := by
  simp [Slot.advanced, Slot.sounding, h]

theorem Slot.advanced_sounding {d : Num} {v : Slot} (h : v.phase ≠ .off) :
    v.advanced d = { v with elapsed := v.elapsed + d } := by
  simp [Slot.advanced, Slot.sounding, h]

@[simp] theorem Slot.advanced_phase (d : Num) (v : Slot) : (v.advanced d).phase = v.phase := by
  unfold Slot.advanced; split <;> rfl

@[simp] theorem Slot.advanced_rel (d : Num) (v : Slot) : (v.advanced d).rel = v.rel := by
  unfold Slot.advanced; split <;> rfl

@[simp] theorem Slot.advanced_freq (d : Num) (v : Slot) : (v.advanced d).freq = v.freq := by
  unfold Slot.advanced; split <;> rfl

/-! ### What a command that completes has done -/

/-- NOTE_ON completes by starting the note in its target slot or, without one, by changing nothing. -/
theorem execNoteOn_next {s t : State} (h : execNoteOn s = .next t) : ∃ f, s.din = .num f ∧ 0 < f ∧
    ((∃ j, noteOnTarget s f = some j ∧ t = (s.setSlot j (Slot.started f)).emit .nothing) ∨
      (noteOnTarget s f = none ∧ t = s.emit .nothing)) := by
  obtain ⟨f, hf, hk⟩ := withOperand_next h
  obtain ⟨hd, hp⟩ := freqOperand_ok.1 hf
  refine ⟨f, hd, hp, ?_⟩
  split at hk
  · rename_i j hj
    cases hk
    exact .inl ⟨j, hj, rfl⟩
  · rename_i hj
    cases hk
    exact .inr ⟨hj, rfl⟩

/-- NOTE_OFF completes by releasing its target slot or, without one, by changing nothing. -/
theorem execNoteOff_next {s t : State} (h : execNoteOff s = .next t) : ∃ f, s.din = .num f ∧ 0 < f ∧
    ((∃ j, noteOffTarget s f = some j ∧ t = (s.setSlot j (s.V j).released).emit .nothing) ∨
      (noteOffTarget s f = none ∧ t = s.emit .nothing)) := by
  obtain ⟨f, hf, hk⟩ := withOperand_next h
  obtain ⟨hd, hp⟩ := freqOperand_ok.1 hf
  refine ⟨f, hd, hp, ?_⟩
  split at hk
  · rename_i j hj
    cases hk
    exact .inl ⟨j, hj, rfl⟩
  · rename_i hj
    cases hk
    exact .inr ⟨hj, rfl⟩

/-- ADVANCE completes by moving every slot by its time step. -/
theorem execAdvance_next {s t : State} (h : execAdvance s = .next t) : ∃ d, s.din = .num d ∧ 0 < d ∧
    t = State.emit { s with slots := s.slots.map (Slot.advanced d) } .nothing := by
  obtain ⟨d, hd, hk⟩ := withOperand_next h
  cases hk
  exact ⟨d, (deltaOperand_ok.1 hd).1, (deltaOperand_ok.1 hd).2, rfl⟩

/-- READ_VOICE completes by placing the slot on `VOUT`. -/
theorem execReadVoice_next {s t : State} {j : Nat} (h : execReadVoice j s = .next t) : j < s.cap ∧
    t = s.emit (.vout (s.V j).phase.code (s.V j).elapsed (s.V j).rel (s.V j).freq) := by
  obtain ⟨v, hv, hk⟩ := withOperand_next h
  obtain ⟨hj, rfl⟩ := slotOperand_ok.1 hv
  cases hk
  exact ⟨hj, rfl⟩

/-- SAMPLE completes by writing the slot's phase and placing the shaped sample on `DOUT`. -/
theorem execSample_next {s t : State} {j : Nat} (h : execSample j s = .next t) : ∃ x, s.din = .num x ∧ j < s.cap ∧
    t = (s.setSlot j { s.V j with phase := (envelope s (s.V j) x).1 }).emit (.dout (envelope s (s.V j) x).2) := by
  obtain ⟨v, hv, hk⟩ := withOperand_next h
  obtain ⟨hj, rfl⟩ := slotOperand_ok.1 hv
  obtain ⟨x, hx, hk⟩ := withOperand_next hk
  cases hk
  exact ⟨x, numOperand_ok.1 hx, hj, rfl⟩

/-- SAMPLE on its operands, as an equation. -/
theorem execSample_eq {s : State} {j : Nat} {x : Num} (hj : j < s.cap) (hx : s.din = .num x) : execSample j s =
    .next ((s.setSlot j { s.V j with phase := (envelope s (s.V j) x).1 }).emit (.dout (envelope s (s.V j) x).2)) := by
  simp [execSample, slotOperand_of_lt hj, hx, numOperand, withOperand_ok]

/-- The phase SAMPLE leaves does not depend on the raw sample. -/
theorem envelope_phase_raw (s : State) (v : Slot) (x y : Num) : (envelope s v x).1 = (envelope s v y).1 := by
  unfold envelope
  split <;> first | rfl | (split <;> first | rfl | (split <;> rfl))

/-! ### Reset and the step -/

theorem resetBlock_legal {p : Params} (h : p.legal) : resetBlock p = .next (State.resetWith p) := if_pos h

theorem resetBlock_illegal {p : Params} (h : ¬ p.legal) : resetBlock p = .refused (.outOfContract .badConfig) := if_neg h

/-- RST completes only on a legal configuration, and leaves the reset state of the running block. -/
theorem applyRst_next {s t : State} {c : CfgIn} {rest : List HostInput} (h : applyRst s c rest = .next t) :
    (s.params c).legal ∧ t = { State.resetWith (s.params c) with pending := rest } := by
  unfold applyRst at h
  by_cases hl : (s.params c).legal
  · rw [resetBlock_legal hl] at h
    cases h
    exact ⟨hl, rfl⟩
  · rw [resetBlock_illegal hl] at h
    cases h

theorem nextInput_command {s : State} {w : Word} {d : DataIn} {rest : List HostInput} (hr : s.refused = none)
    (hp : s.pending = .command w d :: rest) : nextInput s = .command (s.present w d rest) := by
  unfold nextInput
  rw [hr, hp]

/-- What a step that answers a next state has done: waited, run a command, or reset the block. -/
theorem step_next {s t : State} (h : step s = .next t) : s.refused = none ∧
    ((s.pending = [] ∧ t = idle s) ∨
      (∃ w d rest i, s.pending = .command w d :: rest ∧ decode s.cap w = .ok i ∧
        exec i (s.present w d rest) = .next t) ∨
      (∃ c rest, s.pending = .rst c :: rest ∧ (s.params c).legal ∧
        t = { State.resetWith (s.params c) with pending := rest })) := by
  unfold step nextInput at h
  split at h
  · rename_i o ho
    split at ho
    · cases ho
      cases h
    · rename_i hm
      refine ⟨hm, ?_⟩
      split at ho
      · rename_i hp
        cases ho
        cases h
        exact .inl ⟨hp, rfl⟩
      · cases ho
      · rename_i c rest hp
        cases ho
        exact .inr (.inr ⟨c, rest, hp, applyRst_next h⟩)
  · rename_i u ho
    split at ho
    · cases ho
    · rename_i hm
      refine ⟨hm, ?_⟩
      split at ho
      · cases ho
      · rename_i w d rest hp
        cases ho
        obtain ⟨i, hi, hx⟩ := withOperand_next h
        exact .inr (.inl ⟨w, d, rest, i, hp, hi, hx⟩)
      · cases ho

end Sys2Proof.Machine
end

