-- ==== Sys2Proof/Laws/Exec.lean ====
section
/-!
SUPPORT. The commands on operands that pass, as equations; the branches of the envelope; and what any command that
completes has done to one slot.
-/

namespace Sys2Proof.Machine

/-! ### Commands as equations -/

theorem execNoteOn_eq {s : State} {f : Num} (hd : s.din = .num f) (hf : 0 < f) : execNoteOn s =
    match noteOnTarget s f with
    | some j => .next ((s.setSlot j (Slot.started f)).emit .nothing)
    | none   => .next (s.emit .nothing) := by
  rw [execNoteOn, freqOperand_ok.2 ⟨hd, hf⟩]; rfl

theorem execNoteOff_eq {s : State} {f : Num} (hd : s.din = .num f) (hf : 0 < f) : execNoteOff s =
    match noteOffTarget s f with
    | some j => .next ((s.setSlot j (s.V j).released).emit .nothing)
    | none   => .next (s.emit .nothing) := by
  rw [execNoteOff, freqOperand_ok.2 ⟨hd, hf⟩]; rfl

theorem execAdvance_eq {s : State} {d : Num} (hd : s.din = .num d) (h : 0 < d) : execAdvance s =
    .next (State.emit { s with slots := s.slots.map (Slot.advanced d) } .nothing) := by
  rw [execAdvance, deltaOperand_ok.2 ⟨hd, h⟩]; rfl

theorem execReadVoice_eq {s : State} {j : Nat} (hj : j < s.cap) : execReadVoice j s =
    .next (s.emit (.vout (s.V j).phase.code (s.V j).elapsed (s.V j).rel (s.V j).freq)) := by
  rw [execReadVoice, slotOperand_of_lt hj]; rfl

/-- SAMPLE once its branch of the envelope is known. -/
theorem execSample_of_envelope {s : State} {j : Nat} {x : Num} {ph : Phase} {y : Num} (hj : j < s.cap)
    (hx : s.din = .num x) (he : envelope s (s.V j) x = (ph, y)) :
    execSample j s = .next ((s.setSlot j { s.V j with phase := ph }).emit (.dout y)) := by
  rw [execSample_eq hj hx, he]

/-- Writing to a slot the phase it already has changes nothing. -/
theorem State.setSlot_phase_self {s : State} {j : Nat} {ph : Phase} (h : (s.V j).phase = ph) :
    s.setSlot j { s.V j with phase := ph } = s := by
  subst h
  exact congrArg (fun l => { s with slots := l }) (State.slots_set_V s j)

/-! ### The branches of the envelope -/

theorem envelope_attack_ramp {s : State} {v : Slot} (x : Num) (hp : v.phase = .attack)
    (h : 0 < s.cfgAttack ∧ v.elapsed < s.cfgAttack) : envelope s v x = (.attack, x * (v.elapsed / s.cfgAttack)) := by
  simp [envelope, hp, h]

theorem envelope_attack_over {s : State} {v : Slot} (x : Num) (hp : v.phase = .attack) (hc : s.cascade = false)
    (h : ¬ (0 < s.cfgAttack ∧ v.elapsed < s.cfgAttack)) : envelope s v x = (.decay, x) := by
  simp only [envelope, hp, if_neg h, hc, Bool.false_eq_true, if_false]

theorem envelope_attack_cascade {s : State} {v : Slot} (x : Num) (hp : v.phase = .attack) (hc : s.cascade = true)
    (h : ¬ (0 < s.cfgAttack ∧ v.elapsed < s.cfgAttack)) : envelope s v x = (.sustain, x * s.cfgSustain) := by
  simp only [envelope, hp, if_neg h, hc, if_true]

theorem envelope_decay {s : State} {v : Slot} (x : Num) (hp : v.phase = .decay) (hc : s.cascade = false) :
    envelope s v x = (.sustain, x) := by
  simp [envelope, hp, hc]

theorem envelope_decay_cascade {s : State} {v : Slot} (x : Num) (hp : v.phase = .decay) (hc : s.cascade = true) :
    envelope s v x = (.sustain, x * s.cfgSustain) := by
  simp [envelope, hp, hc]

theorem envelope_sustain {s : State} {v : Slot} (x : Num) (hp : v.phase = .sustain) :
    envelope s v x = (.sustain, x * s.cfgSustain) := by
  simp [envelope, hp]

theorem envelope_release_fade {s : State} {v : Slot} (x : Num) (hp : v.phase = .release)
    (h : 0 < s.cfgRelease ∧ v.elapsed - v.rel < s.cfgRelease) :
    envelope s v x = (.release, x * s.cfgSustain * (1 - (v.elapsed - v.rel) / s.cfgRelease)) := by
  simp [envelope, hp, h]

theorem envelope_release_over {s : State} {v : Slot} (x : Num) (hp : v.phase = .release)
    (h : ¬ (0 < s.cfgRelease ∧ v.elapsed - v.rel < s.cfgRelease)) : envelope s v x = (.off, 0) := by
  simp only [envelope, hp, if_neg h]

theorem envelope_off {s : State} {v : Slot} (x : Num) (hp : v.phase = .off) : envelope s v x = (.off, 0) := by
  simp [envelope, hp]

/-! ### One slot under any command -/

/-- What a completed command has done to slot `k`: started a note in it, released it, moved its time, written its phase,
or left it alone. -/
inductive SlotChange (i : Instr) (s t : State) (k : Nat) : Prop where
  | started (f : Num) (hi : i = .noteOn) (hd : s.din = .num f) (hf : 0 < f) (hj : noteOnTarget s f = some k)
      (h : t.V k = Slot.started f)
  | released (f : Num) (hi : i = .noteOff) (hd : s.din = .num f) (hf : 0 < f) (hj : noteOffTarget s f = some k)
      (h : t.V k = (s.V k).released)
  | advanced (d : Num) (hi : i = .advance) (hd : s.din = .num d) (hp : 0 < d) (h : t.V k = (s.V k).advanced d)
  | sampled (x : Num) (hi : i = .sample k) (hd : s.din = .num x) (hk : k < s.cap)
      (h : t.V k = { s.V k with phase := (envelope s (s.V k) x).1 })
  | same (h : t.V k = s.V k)

theorem exec_slot {i : Instr} {s t : State} (hx : exec i s = .next t) (k : Nat) : SlotChange i s t k := by
  cases i with
  | advance =>
    obtain ⟨d, hd, hp, rfl⟩ := execAdvance_next hx
    refine .advanced d rfl hd hp ?_
    by_cases hk : k < s.cap
    · exact State.V_map _ hk
    · rw [State.V_of_ge (s := s) (by omega), State.V_of_ge]
      · simp [Slot.advanced, Slot.sounding, Slot.reset]
      · simpa [State.cap] using hk
  | sample j =>
    obtain ⟨x, hd, hj, rfl⟩ := execSample_next hx
    by_cases hkj : k = j
    · subst hkj
      exact .sampled x rfl hd hj (State.V_setSlot_self hj _)
    · exact .same (State.V_setSlot_ne hkj _)
  | readVoice j =>
    obtain ⟨-, rfl⟩ := execReadVoice_next hx
    exact .same rfl
  | noteOff =>
    obtain ⟨f, hd, hf, ⟨j, hj, rfl⟩ | ⟨-, rfl⟩⟩ := execNoteOff_next hx
    · by_cases hkj : k = j
      · subst hkj
        exact .released f rfl hd hf hj (State.V_setSlot_self (noteOffTarget_eq_some.1 hj).1 _)
      · exact .same (State.V_setSlot_ne hkj _)
    · exact .same rfl
  | noteOn =>
    obtain ⟨f, hd, hf, ⟨j, hj, rfl⟩ | ⟨-, rfl⟩⟩ := execNoteOn_next hx
    · by_cases hkj : k = j
      · subst hkj
        exact .started f rfl hd hf hj (State.V_setSlot_self (noteOnTarget_eq_some.1 hj).1 _)
      · exact .same (State.V_setSlot_ne hkj _)
    · exact .same rfl

/-! ### Inputs the host applies -/

/-- A command the host applies, once its word decodes, runs on its ports with the host's other inputs kept. -/
theorem applyInput_command {s : State} {w : Word} {d : DataIn} {i : Instr} (hr : s.refused = none)
    (hi : decode s.cap w = .ok i) : applyInput (.command w d) s = exec i (s.present w d s.pending) := by
  have hn : nextInput { s with pending := .command w d :: s.pending } = .command (s.present w d s.pending) :=
    nextInput_command hr rfl
  have hd : decodePort (s.present w d s.pending) = .ok i := hi
  rw [applyInput, step, hn]
  show withOperand (decodePort (s.present w d s.pending)) _ = _
  rw [hd, withOperand_ok]

/-- A run starts with its first input, when that completes. -/
theorem runInputs_cons {c : HostInput} {cs : List HostInput} {s t u : State} {rs : List Result}
    (h : applyInput c s = .next t) (hr : runInputs cs t = .next (u, rs)) :
    runInputs (c :: cs) s = .next (u, t.out :: rs) := by
  simp [runInputs, h, hr]

end Sys2Proof.Machine
end

