-- ==== Sys2Proof/Laws/PerInstr.lean ====
section
/-!
SUPPORT. The family EncodeFields: the three fields of the word of each command that fits its `SLOT` field, as
30_encoding.md R71, R72 and R81 give them.
-/

namespace Sys2Proof.Laws.EncodeFields

open Sys2Proof Sys2Proof.Machine

/-- The encoded word holds the command's opcode, zero reserved bits, and its slot, or zero where it has none. -/
def Statement (i : Instr) : Prop :=
  i.slotFits = true →
    wordOp (encode i) = i.opcode.toNat ∧ wordRsvd (encode i) = 0 ∧ wordSlot (encode i) = i.slot?.getD 0

theorem advance : Statement .advance := fun _ => by decide

theorem sample (slot : Nat) : Statement (.sample slot) := fun h => by
  have hs : slot < 256 := of_decide_eq_true h
  simp only [wordOp, wordRsvd, wordSlot, encode_toNat _ h, Instr.opcode, Instr.slot?, Option.getD_some,
    BitVec.reduceToNat]
  omega

theorem readVoice (slot : Nat) : Statement (.readVoice slot) := fun h => by
  have hs : slot < 256 := of_decide_eq_true h
  simp only [wordOp, wordRsvd, wordSlot, encode_toNat _ h, Instr.opcode, Instr.slot?, Option.getD_some,
    BitVec.reduceToNat]
  omega

theorem noteOff : Statement .noteOff := fun _ => by decide

theorem noteOn : Statement .noteOn := fun _ => by decide

end Sys2Proof.Laws.EncodeFields
end

