-- ==== Sys2Proof/Laws/Ports.lean ====
section
/-!
SUPPORT. What the encoding of the data ports keeps, and the runs at the ports.
-/

namespace Sys2Proof.Machine

/-- No two Nums share a pattern. -/
theorem NumEnc_legal_injective {e : NumEnc} (h : e.legal) {v w : Num} {b : Pattern} (hv : e.bitsOf v = some b)
    (hw : e.bitsOf w = some b) : v = w :=
  Option.some.inj ((h.1 v b hv).symm.trans (h.1 w b hw))

/-- A pattern driven for a Num is read as that Num. -/
theorem readPort_of_bitsOf {e : NumEnc} (h : e.legal) {v : Num} {b : Pattern} (hv : e.bitsOf v = some b) :
    readPort e b = .num v := by
  rw [readPort, h.1 v b hv]

/-- The input the host drives for a command is read as that command with its Num. -/
theorem readPins_of_pinInput {e : NumEnc} (h : e.legal) {i : Instr} {v : Num} {c : PinInput}
    (hc : pinInput e i v = some c) : readPins e c = input i v := by
  obtain ⟨b, hb, rfl⟩ := Option.map_eq_some_iff.1 hc
  exact congrArg _ (readPort_of_bitsOf h hb)

@[simp] theorem driveResult_nothing (e : NumEnc) : driveResult e .nothing = .nothing := rfl

@[simp] theorem driveResult_dout (e : NumEnc) (y : Num) : driveResult e (.dout y) = .dout (e.bitsOf y) := rfl

@[simp] theorem driveResult_vout (e : NumEnc) (ph : BitVec 3) (el rl fq : Num) :
    driveResult e (.vout ph el rl fq) = .vout ph (e.bitsOf el) (e.bitsOf rl) (e.bitsOf fq) := rfl

/-- A run that completes on the Nums completes at the ports, in the same state, with the results encoded. -/
theorem runPins_of_runInputs {e : NumEnc} {cs : List PinInput} {s t : State} {rs : List Result}
    (h : runInputs (cs.map (readPins e)) s = .next (t, rs)) : runPins e cs s = .next (t, rs.map (driveResult e)) := by
  rw [runPins, h]; rfl

end Sys2Proof.Machine
end

