-- ==== Sys2Proof/Machine/Assembler.lean ====
section
/-!
DEFINITION. The assembler of 30_encoding.md R82 to R84: one line of text to the inputs it stands for.
-/

namespace Sys2Proof.Machine

/-- A line of assembler (30_encoding.md R82), or one of the pseudo-instructions FRAME and SCAN (R83, R84). -/
inductive AsmLine where
  | noteOn (freq : Num)
  | noteOff (freq : Num)
  | advance (delta : Num)
  | sample (slot : Nat) (raw : Num)
  | readVoice (slot : Nat)
  | frame (delta : Num) (raws : List Num)
  | scan
deriving DecidableEq, Repr

/-- The inputs a line stands for on a VAEG of `n` slots (30_encoding.md R82 to R84). -/
def assemble (n : Nat) : AsmLine → List HostInput
  | .noteOn f      => [input .noteOn f]
  | .noteOff f     => [input .noteOff f]
  | .advance d     => [input .advance d]
  | .sample s x    => [input (.sample s) x]
  | .readVoice s   => [input (.readVoice s) 0]
  | .frame d raws  => frameInputs n d fun i => raws.getD i 0
  | .scan          => scanInputs n

/-- Blanks between the parts of a line. -/
def isBlank (c : Char) : Bool := c = ' ' || c = '\t'

/-- A text without the blanks at its two ends. -/
def trimBlanks (cs : List Char) : List Char :=
  ((cs.dropWhile isBlank).reverse.dropWhile isBlank).reverse

/-- The text before a written result `-> <value>` (30_encoding.md R82). -/
def beforeArrow : List Char → List Char
  | []               => []
  | '-' :: '>' :: _  => []
  | c :: cs          => c :: beforeArrow cs

/-- The value of a run of decimal digits, `acc` being the value of the digits before it. -/
def digitsFrom (acc : Nat) : List Char → Option Nat
  | []      => some acc
  | c :: cs => if c.isDigit then digitsFrom (10 * acc + (c.toNat - '0'.toNat)) cs else none

/-- A decimal integer without sign. -/
def natLiteral (cs : List Char) : Option Nat := if cs = [] then none else digitsFrom 0 cs

/-- A rational literal without sign: an integer, a fraction `p/q`, or a decimal read exactly (30_encoding.md R82,
00_scope.md R10). -/
def unsignedLiteral (cs : List Char) : Option Num :=
  match cs.splitOn '/' with
  | [p, q] =>
    match natLiteral p, natLiteral q with
    | some a, some b => if b = 0 then none else some (a / b)
    | _, _           => none
  | _ =>
    match cs.splitOn '.' with
    | [a]    => (natLiteral a).map fun v => (v : Num)
    | [a, b] =>
      match natLiteral a, natLiteral b with
      | some v, some f => some (v + f / 10 ^ b.length)
      | _, _           => none
    | _ => none

/-- A rational literal with its sign. -/
def ratLiteral : List Char → Option Num
  | '-' :: cs => (unsignedLiteral cs).map fun v => -v
  | cs        => unsignedLiteral cs

/-- A slot literal: a decimal integer that the 8-bit `SLOT` field holds (30_encoding.md R71, R82; log 15). -/
def slotLiteral (cs : List Char) : Option Nat :=
  match natLiteral cs with
  | some v => if v < maxSlots then some v else none
  | none   => none

/-- All the literals of a list, or none when one of them is no literal. -/
def ratLiterals : List (List Char) → Option (List Num)
  | []      => some []
  | f :: fs =>
    match ratLiteral f, ratLiterals fs with
    | some v, some vs => some (v :: vs)
    | _, _            => none

/-- The line a mnemonic and its operand texts make (30_encoding.md R82 to R84); FRAME takes one raw sample a slot. -/
def lineOf (n : Nat) (mnemonic : List Char) (fields : List (List Char)) : Option AsmLine :=
  if mnemonic = "NOTE_ON".toList then
    match fields with
    | [f] => (ratLiteral f).map .noteOn
    | _   => none
  else if mnemonic = "NOTE_OFF".toList then
    match fields with
    | [f] => (ratLiteral f).map .noteOff
    | _   => none
  else if mnemonic = "ADVANCE".toList then
    match fields with
    | [d] => (ratLiteral d).map .advance
    | _   => none
  else if mnemonic = "SAMPLE".toList then
    match fields with
    | [s, x] =>
      match slotLiteral s, ratLiteral x with
      | some i, some v => some (.sample i v)
      | _, _           => none
    | _ => none
  else if mnemonic = "READ_VOICE".toList then
    match fields with
    | [s] => (slotLiteral s).map .readVoice
    | _   => none
  else if mnemonic = "FRAME".toList then
    match ratLiterals fields with
    | some (d :: raws) => if raws.length = n then some (.frame d raws) else none
    | _                => none
  else if mnemonic = "SCAN".toList then
    match fields with
    | [] => some .scan
    | _  => none
  else none

/-- A line of text: comment and written result cut off, then the mnemonic, then the operands between commas
(30_encoding.md R82). -/
def parseLine (n : Nat) (text : List Char) : Option AsmLine :=
  let body := trimBlanks (beforeArrow (text.takeWhile (· ≠ ';')))
  let mnemonic := body.takeWhile fun c => !isBlank c
  let operands := trimBlanks (body.drop mnemonic.length)
  lineOf n mnemonic (if operands = [] then [] else (operands.splitOn ',').map trimBlanks)

end Sys2Proof.Machine
end

