-- ==== Sys2Proof/Tests/Slice0.lean ====
section
/-!
SUPPORT. The model's own tests: ill-formed commands, words written out from the encoding of 30_encoding.md, at most two
single-step vectors of 95_test_vectors.md per command, and for every obligation with hypotheses a state and operands
that meet them. Expected results are those of the spec's vectors, named in each docstring.
-/

namespace Sys2Proof.Tests

open Sys2Proof Sys2Proof.Machine

/-! The tests are elaborated one after another: in parallel each waiting one holds a thread's stack. -/
set_option Elab.async false

/-! ### Helpers -/

/-- The configuration of the derived vectors (95_test_vectors.md section 2). -/
def cfgVec : CfgIn := { attack := 1 / 10, decay := 0, sustain := 4 / 5, release := 1 / 5 }

/-- A machine with the slots `vs`, the configuration of the vectors, and `x` on `DIN`. -/
def small (vs : List Slot) (x : ℚ) (cascade : Bool := false) : State :=
  { State.resetWith { n := vs.length, cfg := cfgVec, cascade := cascade } with slots := vs, din := .num x }

/-- Slots bound to 440 in each phase, with legal times. -/
def slotIn (p : Phase) : Slot := { phase := p, elapsed := 1 / 10, rel := 1 / 10, freq := 440 }

/-- A slot never used. -/
def fresh : Slot := { phase := .off, elapsed := 0, rel := 0, freq := 0 }

/-- The outcome is a next state with these slots and this result. -/
def gives (o : Outcome) (vs : List Slot) (r : Result) : Bool :=
  match o with
  | .next t => t.slots = vs && t.out = r
  | _       => false

/-- The outcome is a next state. -/
def completes (o : Outcome) : Bool :=
  match o with
  | .next _ => true
  | _       => false

theorem next_of_completes {o : Outcome} (h : completes o = true) : ∃ t, o = .next t := by
  cases o with
  | next t => exact ⟨t, rfl⟩
  | fault f => cases h
  | refused r => cases h

/-- The outcome is a refusal for this reason. -/
def refusesFor (o : Outcome) (r : RefusalReason) : Bool :=
  match o with
  | .refused (.outOfContract q) => q = r
  | _                           => false

theorem refused_of_refusesFor {o : Outcome} {r : RefusalReason} (h : refusesFor o r = true) :
    o = .refused (.outOfContract r) := by
  cases o with
  | next t => cases h
  | fault f => cases h
  | refused q =>
    rcases q with m | p
    · cases h
    · exact congrArg _ (congrArg _ (of_decide_eq_true h))

/-! ### Well-formedness: one ill-formed command for each check -/

theorem test_wf_accepts : (Instr.sample 255).wf 256 = true ∧ Instr.noteOn.wf 1 = true := by decide

/-- 256 does not fit the 8-bit SLOT field. -/
theorem test_wf_slot_too_wide : (Instr.sample 256).slotFits = false ∧ (Instr.sample 256).wf 300 = false := by decide

/-- Slot 2 is not in a file of 2 slots (vector RV-3). -/
theorem test_wf_slot_not_in_file :
    (Instr.readVoice 2).slotInFile 2 = false ∧ (Instr.readVoice 2).wf 2 = false := by decide

/-! ### Decoding: words written from 30_encoding.md R71, OP RSVD SLOT -/

theorem test_decode_advance : decode 2 0b0001_00000000000000000000_00000000#32 = .ok .advance := by decide

theorem test_decode_sample : decode 256 0b0010_00000000000000000000_10000001#32 = .ok (.sample 129) := by decide

theorem test_decode_readVoice : decode 256 0b0011_00000000000000000000_11111111#32 = .ok (.readVoice 255) := by decide

theorem test_decode_noteOff : decode 2 0b1000_00000000000000000000_00000000#32 = .ok .noteOff := by decide

theorem test_decode_noteOn : decode 2 0b1001_00000000000000000000_00000000#32 = .ok .noteOn := by decide

/-- Vectors DE-7, DE-8, DE-9, DE-13. -/
theorem test_decode_reserved_opcodes :
    decode 2 0x00000000#32 = .error .reservedOpcode ∧ decode 2 0x40000000#32 = .error .reservedOpcode ∧
    decode 2 0xF0000000#32 = .error .reservedOpcode ∧ decode 2 0x7FFFFFFF#32 = .error .reservedOpcode := by decide

/-- Vectors DE-10, DE-14, DE-15. -/
theorem test_decode_reserved_bits :
    decode 2 0x90000100#32 = .error .reservedBits ∧ decode 2 0x2FFFFFFF#32 = .error .reservedBits ∧
    decode 2 0x98000000#32 = .error .reservedBits := by decide

/-- Vectors DE-11, DE-12, and DE-5, DE-17. -/
theorem test_decode_slot_checks :
    decode 2 0x90000001#32 = .error .slotNotZero ∧ decode 2 0x10000005#32 = .error .slotNotZero ∧
    decode 2 0x20000002#32 = .error .slotRange ∧ decode 1 0x30000001#32 = .error .slotRange := by decide

/-- The five rows of the opcode table decode and run as the first command after reset. -/
theorem test_table_rows_run : ∀ r ∈ [(0x10000000, Instr.advance), (0x20000000, .sample 0), (0x30000000, .readVoice 0),
      (0x80000000, .noteOff), (0x90000000, .noteOn)],
    decodeTableWord 32 r.1 = some r.2 ∧ completes (step (State.reset.withFetchWord 32 r.1)) = true := by decide +kernel

/-! ### Commands: single steps of the spec's vectors -/

/-- Vector NO-4: the bound slot wins over an earlier free one. -/
theorem test_noteOn_bound_before_free :
    gives (exec .noteOn (small [{ phase := .off, elapsed := 3, rel := 2, freq := 100 },
        { phase := .sustain, elapsed := 1, rel := 0, freq := 200 }] 200))
      [{ phase := .off, elapsed := 3, rel := 2, freq := 100 },
        { phase := .attack, elapsed := 0, rel := 0, freq := 200 }] .nothing = true := by decide +kernel

/-- Vector NO-10: a slot in Release is not free, so the note is dropped. -/
theorem test_noteOn_drops :
    gives (exec .noteOn (small [{ phase := .release, elapsed := 1, rel := 1 / 2, freq := 440 }] 550))
      [{ phase := .release, elapsed := 1, rel := 1 / 2, freq := 440 }] .nothing = true := by decide +kernel

/-- Vector NF-8: only the matching slot is released. -/
theorem test_noteOff_releases :
    gives (exec .noteOff (small [{ phase := .sustain, elapsed := 1, rel := 0, freq := 440 },
        { phase := .sustain, elapsed := 2, rel := 0, freq := 550 }] 550))
      [{ phase := .sustain, elapsed := 1, rel := 0, freq := 440 },
        { phase := .release, elapsed := 2, rel := 2, freq := 550 }] .nothing = true := by decide +kernel

/-- Vector NF-4: a slot in Release is not released again. -/
theorem test_noteOff_release_is_noop :
    gives (exec .noteOff (small [{ phase := .release, elapsed := 1 / 2, rel := 3 / 10, freq := 440 }] 440))
      [{ phase := .release, elapsed := 1 / 2, rel := 3 / 10, freq := 440 }] .nothing = true := by decide +kernel

/-- Vector AD-1: an Off slot keeps its time. -/
theorem test_advance_skips_off :
    gives (exec .advance (small [{ phase := .attack, elapsed := 0, rel := 0, freq := 440 },
        { phase := .off, elapsed := 7, rel := 0, freq := 550 }] (1 / 20)))
      [{ phase := .attack, elapsed := 1 / 20, rel := 0, freq := 440 },
        { phase := .off, elapsed := 7, rel := 0, freq := 550 }] .nothing = true := by decide +kernel

/-- Vector AD-7: ADVANCE past the attack time makes no transition. -/
theorem test_advance_makes_no_transition :
    gives (exec .advance (small [{ phase := .attack, elapsed := 1 / 20, rel := 0, freq := 440 }] 1))
      [{ phase := .attack, elapsed := 21 / 20, rel := 0, freq := 440 }] .nothing = true := by decide +kernel

/-- Vector RV-2. -/
theorem test_readVoice_release :
    gives (exec (.readVoice 1) (small [fresh, { phase := .release, elapsed := 1 / 2, rel := 3 / 10, freq := 440 }] 0))
      [fresh, { phase := .release, elapsed := 1 / 2, rel := 3 / 10, freq := 440 }]
      (.vout 0b100#3 (1 / 2) (3 / 10) 440) = true := by decide +kernel

/-- Vector RV-3. -/
theorem test_readVoice_out_of_range : refusesFor (exec (.readVoice 2) (small [fresh, fresh] 0)) .slotRange = true := by
  decide +kernel

/-- Vector SA-3 and its cascade: at `elapsed = CFG_ATTACK` the attack is over. -/
theorem test_sample_attack_over :
    gives (exec (.sample 0) (small [{ phase := .attack, elapsed := 1 / 10, rel := 0, freq := 440 }] 1))
      [{ phase := .decay, elapsed := 1 / 10, rel := 0, freq := 440 }] (.dout 1) = true ∧
    gives (exec (.sample 0) (small [{ phase := .attack, elapsed := 1 / 10, rel := 0, freq := 440 }] 1 true))
      [{ phase := .sustain, elapsed := 1 / 10, rel := 0, freq := 440 }] (.dout (4 / 5)) = true := by decide +kernel

/-- Vectors SA-19 and SA-11: the fade, and its end. -/
theorem test_sample_release :
    gives (exec (.sample 0) (small [{ phase := .release, elapsed := 1 / 5, rel := 1 / 10, freq := 440 }] (-1)))
      [{ phase := .release, elapsed := 1 / 5, rel := 1 / 10, freq := 440 }] (.dout (-2 / 5)) = true ∧
    gives (exec (.sample 0) (small [{ phase := .release, elapsed := 3 / 10, rel := 1 / 10, freq := 440 }] 1))
      [{ phase := .off, elapsed := 3 / 10, rel := 1 / 10, freq := 440 }] (.dout 0) = true := by decide +kernel

/-! ### Host side -/

/-- 30_encoding.md R82: the line `SAMPLE 1, -0.25 -> 0 ; note` is the pair `(0x20000001, -1/4)`. -/
theorem test_assemble_sample :
    (parseLine 2 "SAMPLE 1, -0.25 -> 0 ; note".toList).map (assemble 2) =
      some [.command 0x20000001#32 (.num (-1 / 4))] := by decide +kernel

/-- 30_encoding.md R83: FRAME is the SAMPLEs, then ADVANCE. -/
theorem test_assemble_frame :
    (parseLine 2 "FRAME 1/100, 1, 2".toList).map (assemble 2) =
      some [.command 0x20000000#32 (.num 1), .command 0x20000001#32 (.num 2), .command 0x10000000#32 (.num (1 / 100))] :=
  by decide +kernel

/-- A text that is no line, a zero denominator, and a slot that does not fit are rejected. -/
theorem test_assemble_rejects :
    parseLine 2 "NOTE_UP 440".toList = none ∧ parseLine 2 "NOTE_ON 1/0".toList = none ∧
    parseLine 2 "READ_VOICE 256".toList = none := by decide +kernel

/-! ### Witnesses: states and operands that meet the hypotheses of the obligations -/

theorem inv_of_checks {s : State} (h1 : 1 ≤ s.cap ∧ s.cap ≤ maxSlots) (h2 : s.uniqueFreq)
    (h3 : ∀ i < s.cap, (s.V i).good) (h4 : s.cfgGood) : s.Inv := ⟨h1, h2, h3, h4⟩

/-- One slot in Attack bound to 440, at half its attack time. -/
def attacking : State := small [{ phase := .attack, elapsed := 1 / 20, rel := 0, freq := 440 }] 440

theorem attacking_inv : attacking.Inv :=
  inv_of_checks (by decide) (by decide +kernel) (by decide +kernel) (by decide +kernel)

/-- One slot in Release bound to 440, its fade just over. -/
def faded : State := small [{ phase := .release, elapsed := 3 / 10, rel := 1 / 10, freq := 440 }] 440

theorem faded_inv : faded.Inv :=
  inv_of_checks (by decide) (by decide +kernel) (by decide +kernel) (by decide +kernel)

theorem witness_DecodeOfEncodedCommand : 1 ≤ 256 ∧ 256 ≤ 256 ∧ (Instr.sample 255).wf 256 = true := by decide

theorem witness_EncodeOfDecodedWord : decode 2 0x20000001#32 = .ok (.sample 1) := by decide

theorem witness_WordsRejectedByReasonInOrder : decode 2 0x00000000#32 = .error .reservedOpcode ∧
    decode 2 0x90000100#32 = .error .reservedBits ∧ decode 2 0x90000001#32 = .error .slotNotZero ∧
    decode 2 0x20000002#32 = .error .slotRange := by decide

theorem witness_LegalWordCountIsThreePlusTwoN : 1 ≤ 1 ∧ 1 ≤ 256 ∧ 256 ≤ 256 := by decide

theorem witness_ResetLeavesTheStatedState :
    Params.legal { n := 1, cfg := { attack := 0, decay := 0, sustain := 0, release := 0 }, cascade := true } ∧
    Params.legal { n := 256, cfg := { attack := 0, decay := 5, sustain := 1, release := 0 }, cascade := false } := by
  decide +kernel

/-- The boundary values of RF7 (vectors RS-2 to RS-6). -/
theorem witness_ResetRefusesExactlyBadConfigurations :
    refusesFor (resetBlock { n := 257, cfg := cfgVec, cascade := false }) .badConfig = true ∧
    refusesFor (resetBlock { n := 0, cfg := cfgVec, cascade := false }) .badConfig = true ∧
    refusesFor (resetBlock { n := 2, cfg := { cfgVec with sustain := 3 / 2 }, cascade := false }) .badConfig = true ∧
    refusesFor (resetBlock { n := 2, cfg := { cfgVec with attack := -1 }, cascade := false }) .badConfig = true ∧
    completes (resetBlock { n := 256, cfg := { cfgVec with sustain := 1 }, cascade := false }) = true := by
  decide +kernel

theorem witness_RstResetsTheRunningBlock :
    let s := { attacking with pending := [.rst cfgVec] }
    s.refused = none ∧ s.pending = .rst cfgVec :: [] ∧ 1 ≤ s.cap ∧ s.cap ≤ 256 ∧ cfgVec.legal ∧
      ¬ CfgIn.legal { cfgVec with sustain := 3 / 2 } := by decide +kernel

theorem witness_ResetMeetsTheInvariant : Params.reference.legal := by decide +kernel

theorem witness_StepRunsTheDecodedCommand :
    let s := { attacking with pending := [.command 0x20000000#32 (.num 1)] }
    s.refused = none ∧ s.pending = .command 0x20000000#32 (.num 1) :: [] ∧
      decode s.cap 0x20000000#32 = .ok (.sample 0) := by decide +kernel

theorem witness_StepRefusesAnUndecodableWord :
    let s := { attacking with pending := [.command 0x20000001#32 (.num 1)] }
    s.refused = none ∧ s.pending = .command 0x20000001#32 (.num 1) :: [] ∧
      decode s.cap 0x20000001#32 = .error .slotRange := by decide +kernel

theorem witness_StepWaitsWithoutInput : State.reset.refused = none ∧ State.reset.pending = [] := by decide

/-- Program P5: NOTE_OFF 0 is refused with RF5, and the mark is then set. -/
theorem witness_RefusalMarkIsSticky :
    let s := { attacking with pending := [.command 0x80000000#32 (.num 0), .command 0x20000000#32 (.num 1)] }
    step s = .refused (.outOfContract .badFrequency) ∧ (stepMarked s).refused = some .badFrequency := by
  refine ⟨refused_of_refusesFor (by decide +kernel), by decide +kernel⟩

theorem witness_StepKeepsTheInvariant : ∃ s t : State, s.Inv ∧ step s = .next t := by
  obtain ⟨t, ht⟩ := next_of_completes
    (show completes (step { faded with pending := [.command 0x20000000#32 (.num 1)] }) = true by decide +kernel)
  exact ⟨{ faded with pending := [.command 0x20000000#32 (.num 1)] }, t,
    ⟨faded_inv.cap, faded_inv.unique, faded_inv.slots, faded_inv.cfg⟩, ht⟩

theorem witness_StepKeepsNoDecayUnderCascade : ∃ s t : State, s.cascade = true ∧ s.noDecayUnderCascade ∧
    step s = .next t := by
  obtain ⟨t, ht⟩ := next_of_completes (show completes
    (step { small [slotIn .attack] 1 true with pending := [.command 0x20000000#32 (.num 1)] }) = true by decide +kernel)
  exact ⟨_, t, rfl, by decide +kernel, ht⟩

theorem witness_StepKeepsParametersAndConfiguration : ∃ s t : State, step s = .next t ∧
    ∀ c, s.pending.head? ≠ some (.rst c) := by
  obtain ⟨t, ht⟩ := next_of_completes
    (show completes (step { attacking with pending := [.command 0x90000000#32 (.num 550)] }) = true by decide +kernel)
  exact ⟨_, t, ht, by simp⟩

theorem witness_CommandCompletesExactlyInContract :
    ∀ i ∈ [Instr.advance, .sample 0, .readVoice 0, .noteOff, .noteOn], inContract i attacking := by
  intro i hi
  simp only [List.mem_cons, List.not_mem_nil, or_false] at hi
  rcases hi with rfl | rfl | rfl | rfl | rfl
  · exact ⟨by decide +kernel, 440, rfl, by decide⟩
  · exact ⟨by decide +kernel, 440, rfl⟩
  · exact ⟨by decide +kernel, trivial⟩
  · exact ⟨by decide +kernel, 440, rfl, by decide⟩
  · exact ⟨by decide +kernel, 440, rfl, by decide⟩

/-- The boundary operands: frequency 0, delta 0, slot N, and a pattern that is no Num. -/
theorem witness_RefusalReasonsOfCommands :
    let s := small [fresh] 0
    let u := { s with din := .notNum }
    s.din = .num 0 ∧ (0 : ℚ) ≤ 0 ∧ u.din = .notNum ∧ s.cap ≤ 1 ∧ 0 < u.cap ∧
      refusesFor (exec .noteOn s) .badFrequency = true ∧ refusesFor (exec .advance s) .badDelta = true ∧
      refusesFor (exec (.sample 1) u) .slotRange = true ∧ refusesFor (exec (.sample 0) u) .badNum = true := by
  decide +kernel

/-- A finite encoding of width 1 that holds the Num 1 and has one pattern that encodes no Num. -/
def onlyOne : NumEnc where
  bitsOf v := if v = 1 then some [true] else none
  numOf b  := if b = [true] then some 1 else none

theorem onlyOne_legal : onlyOne.legal := by
  constructor
  · intro v b h
    simp only [onlyOne, Option.ite_none_right_eq_some, Option.some.injEq] at h
    obtain ⟨rfl, rfl⟩ := h
    rfl
  · intro v b h
    simp only [onlyOne, Option.ite_none_right_eq_some, Option.some.injEq] at h
    obtain ⟨-, rfl⟩ := h
    exact ⟨[true], rfl⟩

theorem witness_PatternThatEncodesNoNum : ∃ (e : NumEnc) (b : Pattern) (s : State) (j : Nat),
    e.numOf b = none ∧ s.din = readPort e b ∧ j < s.cap :=
  ⟨onlyOne, [false], { small [fresh] 0 with din := .notNum }, 0, by decide, by decide, by decide⟩

/-- One operand for each clause: RF5 at 0, a bound slot, a first free slot, a full pool; and a word of opcode 9. -/
theorem witness_NoteOnBindsRetriggersOrDrops :
    wordOp 0x90000000#32 = 9 ∧ (0 : ℚ) ≤ 0 ∧ (0 : ℚ) < 440 ∧
    (let s := small [fresh, slotIn .release] 440
     1 < s.cap ∧ (s.V 1).freq = 440 ∧ ∀ k < 1, (s.V k).freq ≠ 440) ∧
    (let s := small [slotIn .release, fresh] 550
     1 < s.cap ∧ (∀ k < s.cap, (s.V k).freq ≠ 550) ∧ (s.V 1).phase = .off ∧ ∀ k < 1, (s.V k).phase ≠ .off) ∧
    (let s := small [slotIn .release] 550
     ∀ k < s.cap, (s.V k).freq ≠ 550 ∧ (s.V k).phase ≠ .off) := by decide +kernel

theorem witness_RetriggerRestartsTheSameSlot : attacking.Inv ∧ 0 < attacking.cap ∧ (attacking.V 0).phase ≠ .off ∧
    attacking.din = .num (attacking.V 0).freq ∧ 0 < attacking.cfgAttack :=
  ⟨attacking_inv, by decide +kernel, by decide +kernel, by decide +kernel, by decide +kernel⟩

/-- One operand for each clause: a held slot after one in Release, and a pool with none held. -/
theorem witness_NoteOffReleasesTheHeldSlotOrDoesNothing :
    wordOp 0x80000000#32 = 8 ∧ (0 : ℚ) ≤ 0 ∧ (0 : ℚ) < 440 ∧
    (let s := small [fresh, slotIn .decay] 440
     1 < s.cap ∧ (s.V 1).freq = 440 ∧ (s.V 1).phase ∈ [Phase.attack, .decay, .sustain] ∧
       ∀ k < 1, (s.V k).freq = 440 → (s.V k).phase ∉ [Phase.attack, .decay, .sustain]) ∧
    (let s := small [slotIn .release] 440
     ∀ k < s.cap, (s.V k).freq = 440 → (s.V k).phase ∉ [Phase.attack, .decay, .sustain]) := by decide +kernel

theorem witness_SecondNoteOffChangesNothing :
    attacking.uniqueFreq ∧ attacking.din = .num 440 ∧ (0 : ℚ) < 440 := by decide +kernel

theorem witness_NoteOffKeepsEveryFrequency : attacking.din = .num 440 ∧ (0 : ℚ) < 440 := by decide +kernel

/-- Both clauses, an Off slot and a sounding one. -/
theorem witness_AdvanceMovesEverySoundingSlot :
    let s := small [fresh, slotIn .release] (1 / 20)
    wordOp 0x10000000#32 = 1 ∧ s.din = .num (1 / 20) ∧ (0 : ℚ) < 1 / 20 ∧ (0 : ℚ) ≤ 0 ∧ (s.V 0).phase = .off ∧
      (s.V 1).phase ≠ .off := by decide +kernel

theorem witness_AdvancesAddUpExactly :
    let s := small [fresh, slotIn .sustain] 0
    s.refused = none ∧ (∀ d ∈ [(1 / 3 : ℚ), 1 / 6], 0 < d) ∧ (s.V 0).phase = .off ∧ (s.V 1).phase ≠ .off := by
  decide +kernel

theorem witness_ReadVoiceReportsTheSlot :
    let s := small [fresh, slotIn .attack, slotIn .decay, slotIn .sustain, slotIn .release] 0
    4 < s.cap ∧ (s.V 0).phase = .off ∧ (s.V 1).phase = .attack ∧ (s.V 2).phase = .decay ∧
      (s.V 3).phase = .sustain ∧ (s.V 4).phase = .release := by decide +kernel

/-- The ramp at half the attack time; its end exactly at `CFG_ATTACK`. -/
theorem witness_SampleInAttackRampsThenEntersDecay :
    let s := small [slotIn .attack] 1
    0 < attacking.cap ∧ attacking.din = .num 440 ∧ (attacking.V 0).phase = .attack ∧ attacking.cascade = false ∧
    (0 < attacking.cfgAttack ∧ (attacking.V 0).elapsed < attacking.cfgAttack) ∧ 0 ≤ (attacking.V 0).elapsed ∧
    0 < s.cap ∧ s.din = .num 1 ∧ (s.V 0).phase = .attack ∧ s.cascade = false ∧
    ¬ (0 < s.cfgAttack ∧ (s.V 0).elapsed < s.cfgAttack) := by decide +kernel

theorem witness_SampleInDecayPassesThroughOnce :
    let s := small [slotIn .decay] 1
    0 < s.cap ∧ s.din = .num 1 ∧ (s.V 0).phase = .decay ∧ s.cascade = false := by decide +kernel

theorem witness_SustainLastsUntilANoteReachesIt : (∃ s t : State, (0 < s.cap ∧ s.din = .num 440 ∧
    (s.V 0).phase = .sustain) ∧ exec .noteOff s = .next t ∧ (t.V 0).phase ≠ .sustain) := by
  have ht : noteOffTarget (small [slotIn .sustain] 440) 440 = some 0 := by decide +kernel
  have hx := execNoteOff_eq (s := small [slotIn .sustain] 440) rfl (show (0 : ℚ) < 440 by decide)
  rw [ht] at hx
  exact ⟨_, _, by decide +kernel, hx, by decide +kernel⟩

/-- The fade at its start (`p = 0`) and its end (`p = CFG_RELEASE`). -/
theorem witness_SampleInReleaseFadesToOff :
    let s := small [slotIn .release] 1
    0 < s.cap ∧ s.din = .num 1 ∧ (s.V 0).phase = .release ∧ 0 = (s.V 0).elapsed - (s.V 0).rel ∧
    (0 < s.cfgRelease ∧ 0 < s.cfgRelease) ∧ 0 < faded.cap ∧ faded.din = .num 440 ∧
    (faded.V 0).phase = .release ∧ 1 / 5 = (faded.V 0).elapsed - (faded.V 0).rel ∧
    ¬ (0 < faded.cfgRelease ∧ 1 / 5 < faded.cfgRelease) := by decide +kernel

theorem witness_SampleOfAnOffSlotIsSilent :
    let s := small [slotIn .off] 5
    0 < s.cap ∧ s.din = .num 5 ∧ (s.V 0).phase = .off := by decide +kernel

/-- Both alternatives: the attack over, and Decay. -/
theorem witness_CascadeGoesStraightToSustain :
    let s := small [slotIn .attack, slotIn .decay] 1 true
    0 < s.cap ∧ 1 < s.cap ∧ s.din = .num 1 ∧ s.cascade = true ∧
    ((s.V 0).phase = .attack ∧ ¬ (0 < s.cfgAttack ∧ (s.V 0).elapsed < s.cfgAttack)) ∧ (s.V 1).phase = .decay := by
  decide +kernel

theorem witness_SampleWritesOnlyThePhase : 0 < attacking.cap ∧ attacking.din = .num 440 := by decide +kernel

theorem witness_SampleMakesOnlyTheListedTransitions : ∃ s t : State, exec (.sample 0) s = .next t ∧
    (t.V 0).phase ≠ (s.V 0).phase :=
  ⟨_, _, execSample_eq (s := faded) (x := 440) (by decide) rfl, by decide +kernel⟩

theorem witness_OutputIsRawTimesABoundedGain : 0 < attacking.cap ∧ attacking.din = .num 440 ∧ attacking.Inv :=
  ⟨by decide, rfl, attacking_inv⟩

theorem witness_CommandsTouchOnlySlotsAndResult :
    ∀ i ∈ [Instr.advance, .sample 0, .readVoice 0, .noteOff, .noteOn], ∃ t, exec i attacking = .next t := by
  intro i hi
  apply next_of_completes
  revert i
  decide +kernel

theorem witness_FieldsWrittenByTheirCommandsOnly : ∃ s t : State, exec (.sample 0) s = .next t ∧
    (t.V 0).phase ≠ (s.V 0).phase := witness_SampleMakesOnlyTheListedTransitions

/-- Both clauses at a slot that is not the target. -/
theorem witness_NotesChangeOnlyTheirTargetSlot :
    let s := small [slotIn .attack, fresh] 440
    s.din = .num 440 ∧ completes (exec .noteOn s) = true ∧ noteOnTarget s 440 ≠ some 1 ∧
      completes (exec .noteOff s) = true ∧ noteOffTarget s 440 ≠ some 1 := by decide +kernel

theorem witness_PhasesMoveForwardUntilANewNote :
    (∃ t, exec (.sample 0) faded = .next t) ∧ ∃ t, exec .noteOn faded = .next t :=
  ⟨next_of_completes (by decide +kernel), next_of_completes (by decide +kernel)⟩

theorem witness_ElapsedOnlyGrowsUntilANewNote :
    (∃ t, exec .advance (small [fresh, slotIn .attack] 1) = .next t) ∧
      ((small [fresh, slotIn .attack] 1).V 0).phase = .off :=
  ⟨next_of_completes (by decide +kernel), by decide +kernel⟩

theorem witness_ReleasingSlotFreedOnlyByItsSample : faded.Inv ∧ 0 < faded.cap ∧ (faded.V 0).phase = .release ∧
    (∃ t, exec (.sample 0) faded = .next t ∧ (t.V 0).phase = .off) ∧
    ∃ t, exec .noteOn faded = .next t ∧ t.V 0 ≠ faded.V 0 := by
  have ht : noteOnTarget faded 440 = some 0 := by decide +kernel
  have hx := execNoteOn_eq (s := faded) rfl (show (0 : ℚ) < 440 by decide)
  rw [ht] at hx
  exact ⟨faded_inv, by decide, by decide, ⟨_, execSample_eq (x := 440) (by decide) rfl, by decide +kernel⟩,
    _, hx, by decide +kernel⟩

theorem witness_DecayIsNeverRead : ∀ c ∈ [input .noteOn 440, input .advance 1], ∃ w v, c = .command w v := by
  intro c hc
  simp only [List.mem_cons, List.not_mem_nil, or_false] at hc
  rcases hc with rfl | rfl <;> exact ⟨_, _, rfl⟩

theorem witness_PoolFillsInOrderAndDropsTheLast :
    let s := small [slotIn .off, fresh] 0
    s.refused = none ∧ [(550 : ℚ), 660].length = s.cap ∧
    (∀ k < s.cap, (s.V k).phase = .off ∧ (s.V k).freq ∉ [(770 : ℚ), 550, 660]) ∧
    (∀ f ∈ [(770 : ℚ), 550, 660], 0 < f) ∧ [(770 : ℚ), 550, 660].Nodup := by decide +kernel

/-- A stale 440 that is one of the notes. -/
theorem witness_PoolFillsWhateverStaleFrequencies :
    let s := small [fresh, slotIn .off] 0
    s.uniqueFreq ∧ s.refused = none ∧ [(440 : ℚ), 660].length = s.cap ∧ (∀ k < s.cap, (s.V k).phase = .off) ∧
    (∀ f ∈ [(770 : ℚ), 440, 660], 0 < f) ∧ [(770 : ℚ), 440, 660].Nodup := by decide +kernel

theorem witness_FrameOverAllSlotsEqualsSoundingFrame :
    let s := small [fresh, slotIn .sustain] 0
    s.refused = none ∧ s.cap ≤ 256 ∧ (0 : ℚ) < 1 / 100 := by decide +kernel

theorem witness_ScanReportsEverySlot : attacking.refused = none ∧ attacking.cap ≤ 256 := by decide

/-- At `elapsed = CFG_ATTACK`. -/
theorem witness_RepeatedSamplesRunThroughDecay :
    let s := small [slotIn .attack] 1
    s.refused = none ∧ s.cap ≤ 256 ∧ 0 < s.cap ∧ s.cascade = false ∧ (s.V 0).phase = .attack ∧
      s.cfgAttack ≤ (s.V 0).elapsed := by decide +kernel

theorem witness_AdvanceBeforeTheFirstSampleIsOneStepLate : attacking.Inv ∧ attacking.refused = none ∧
    0 < attacking.cap ∧ (0 : ℚ) < 440 ∧ (attacking.V 0).freq = 440 ∧ (0 : ℚ) < 1 / 20 ∧ 1 / 20 < attacking.cfgAttack :=
  ⟨attacking_inv, by decide +kernel⟩

theorem witness_ReleaseDuringAttackJumpsToTheFade : attacking.Inv ∧ attacking.refused = none ∧ 0 < attacking.cap ∧
    (attacking.V 0).phase = .attack ∧ (0 : ℚ) < 1 / 10 ∧ 1 / 10 < attacking.cfgRelease :=
  ⟨attacking_inv, by decide +kernel⟩

theorem witness_UpstreamEventsBecomeNoteCommands : (0xC0#8 : BitVec 8) ≠ 0x90#8 ∧ (0xC0#8 : BitVec 8) ≠ 0x80#8 := by
  decide

/-- A legal pair of host parameters, and one whose `FREQ_OF` is 0. -/
theorem witness_HostInItsRangesStaysInContract :
    HostParams.legal { sampleRate := 48000, freqOf := fun _ => 440 } ∧
    attacking.refused = none ∧ attacking.cap ≤ 256 ∧
    (∃ i, eventInput { sampleRate := 48000, freqOf := fun _ => 440 } 0x80#8 69 0 = some i) ∧
    (let h : HostParams := { sampleRate := 48000, freqOf := fun _ => 0 }
     h.freqOf 69 ≤ 0 ∧ ∃ i, eventInput h 0x90#8 69 0 = some i) :=
  ⟨⟨show (0 : ℚ) < 48000 by decide +kernel, fun _ => show (0 : ℚ) < 440 by decide +kernel⟩, rfl, by decide, ⟨_, rfl⟩, by decide +kernel, _, rfl⟩

theorem witness_PortsCarryNumsInTheEncoding : onlyOne.legal ∧ attacking.refused = none ∧ attacking.cap ≤ 256 ∧
    0 < attacking.cap ∧ onlyOne.bitsOf 1 = some [true] :=
  ⟨onlyOne_legal, rfl, by decide, by decide, rfl⟩

/-- The encoding of the other pattern: it differs from `onlyOne` in every bit. -/
def otherOne : NumEnc where
  bitsOf v := if v = 1 then some [false] else none
  numOf b  := if b = [false] then some 1 else none

theorem otherOne_legal : otherOne.legal := by
  constructor
  · intro v b h
    simp only [otherOne, Option.ite_none_right_eq_some, Option.some.injEq] at h
    obtain ⟨rfl, rfl⟩ := h
    rfl
  · intro v b h
    simp only [otherOne, Option.ite_none_right_eq_some, Option.some.injEq] at h
    obtain ⟨-, rfl⟩ := h
    exact ⟨[false], rfl⟩

/-- NOTE_ON 1 and SAMPLE 0, 1, as the two encodings drive them. -/
theorem witness_EncodingOfThePortsChangesNoState :
    onlyOne.legal ∧ otherOne.legal ∧
    [(Instr.noteOn, (1 : ℚ)), (.sample 0, 1)].map (fun x => pinInput onlyOne x.1 x.2) =
      [PinInput.command 0x90000000#32 [true], .command 0x20000000#32 [true]].map some ∧
    [(Instr.noteOn, (1 : ℚ)), (.sample 0, 1)].map (fun x => pinInput otherOne x.1 x.2) =
      [PinInput.command 0x90000000#32 [false], .command 0x20000000#32 [false]].map some :=
  ⟨onlyOne_legal, otherOne_legal, by decide +kernel, by decide +kernel⟩

/-- 30_encoding.md R76: a pattern that encodes no Num is read as none, a pattern of the Num 1 as 1. -/
theorem test_ports_read_the_encoding :
    readPins onlyOne (.command 0x90000000#32 [false]) = .command 0x90000000#32 .notNum ∧
    readPins onlyOne (.command 0x90000000#32 [true]) = .command 0x90000000#32 (.num 1) := by decide +kernel

end Sys2Proof.Tests
end

/-! ## Commands at the host's port

What a command the host applies does, once its word decodes (30_encoding.md R80, R81) and its operand is in the contract
(60_exceptions.md R184). -/

namespace Sys2Proof

open Sys2Proof.Machine

/-- The three fields of the word of any command that fits its `SLOT` field (30_encoding.md R71, R72, R81). -/
theorem encode_fields (i : Instr) : Laws.EncodeFields.Statement i := by
  cases i with
  | advance        => exact Laws.EncodeFields.advance
  | sample slot    => exact Laws.EncodeFields.sample slot
  | readVoice slot => exact Laws.EncodeFields.readVoice slot
  | noteOff        => exact Laws.EncodeFields.noteOff
  | noteOn         => exact Laws.EncodeFields.noteOn

/-- The opcode map finds a command by its opcode, its slot being the one at hand. -/
theorem instrOf_opcode (i : Instr) : instrOf i.opcode (i.slot?.getD 0) = some i := by
  cases i <;> rfl

/-- The `SLOT` field that holds the command's slot, or zero where it has none, passes the last check of decoding. -/
theorem checkSlot_ok {n : Nat} {w : Word} {i : Instr} (hslot : slotField w = i.slot?.getD 0)
    (hfile : i.slotInFile n = true) : checkSlot n w i = .ok i := by
  cases i with
  | advance | noteOff | noteOn => exact if_neg (not_not.2 hslot)
  | sample slot | readVoice slot => exact if_neg (Nat.not_le.2 (of_decide_eq_true hfile))

/-- A well-formed command is read back from its word, whatever the capacity (30_encoding.md R81). -/
theorem decode_encode {n : Nat} {i : Instr} (h : i.wf n = true) : decode n (encode i) = .ok i := by
  obtain ⟨hfits, hfile⟩ := Bool.and_eq_true_iff.1 h
  obtain ⟨hop, hrsvd, hslot⟩ := encode_fields i hfits
  have hopField : opField (encode i) = i.opcode := BitVec.eq_of_toNat_eq ((opField_toNat _).trans hop)
  have hslotField : slotField (encode i) = i.slot?.getD 0 := (slotField_eq _).trans hslot
  simp [decode, hopField, hslotField, instrOf_opcode, (rsvdField_eq_zero _).2 hrsvd, checkSlot_ok hslotField hfile]

theorem Instr.wf_sample {n j : Nat} (hn : n ≤ 256) (hj : j < n) : (Instr.sample j).wf n = true := by
  have hfits : j < maxSlots := hj.trans_le hn
  simp [Instr.wf, Instr.slotFits, Instr.slotInFile, Instr.slot?, hj, hfits]

theorem Instr.wf_readVoice {n j : Nat} (hn : n ≤ 256) (hj : j < n) : (Instr.readVoice j).wf n = true :=
  Instr.wf_sample hn hj

end Sys2Proof

namespace Sys2Proof.Machine

/-! ### Commands that stay in the contract -/

/-- A command in the contract completes (60_exceptions.md R184). -/
theorem exec_of_inContract {i : Instr} {s : State} (h : inContract i s) : ∃ t, exec i s = .next t := by
  obtain ⟨hslot, hdin⟩ := h
  cases i with
  | advance =>
    obtain ⟨d, hd, hpos⟩ := hdin
    exact ⟨_, execAdvance_eq hd hpos⟩
  | sample j =>
    obtain ⟨x, hx⟩ := hdin
    exact ⟨_, execSample_eq (of_decide_eq_true hslot) hx⟩
  | readVoice j => exact ⟨_, execReadVoice_eq (of_decide_eq_true hslot)⟩
  | noteOff =>
    obtain ⟨f, hf, hpos⟩ := hdin
    show ∃ t, execNoteOff s = .next t
    rw [execNoteOff_eq hf hpos]
    split <;> exact ⟨_, rfl⟩
  | noteOn =>
    obtain ⟨f, hf, hpos⟩ := hdin
    show ∃ t, execNoteOn s = .next t
    rw [execNoteOn_eq hf hpos]
    split <;> exact ⟨_, rfl⟩

/-- A frequency that is not above zero is no operand of NOTE_ON or NOTE_OFF (60_exceptions.md R182,
RF5). -/
theorem freqOperand_of_nonpos {f : Num} (hf : f ≤ 0) : freqOperand (.num f) = .error .badFrequency := by
  rw [freqOperand, positiveOperand_num, if_neg (not_lt.2 hf)]

theorem execNoteOn_nonpos {s : State} {f : Num} (hd : s.din = .num f) (hf : f ≤ 0) :
    execNoteOn s = .refused (.outOfContract .badFrequency) := by
  rw [execNoteOn, hd, freqOperand_of_nonpos hf, withOperand_error]

theorem execNoteOff_nonpos {s : State} {f : Num} (hd : s.din = .num f) (hf : f ≤ 0) :
    execNoteOff s = .refused (.outOfContract .badFrequency) := by
  rw [execNoteOff, hd, freqOperand_of_nonpos hf, withOperand_error]

/-- A well-formed command the host applies is executed with its Num on `DIN`. -/
theorem applyInput_input {s : State} {i : Instr} (hr : s.refused = none) (hi : i.wf s.cap = true) (v : Num) :
    applyInput (input i v) s = exec i (s.present (encode i) (.num v) s.pending) :=
  applyInput_command hr (decode_encode hi)

/-- SAMPLE of a slot of the file, with the Num `x` on `DIN`. -/
theorem applyInput_sample {s : State} {j : Nat} (hr : s.refused = none) (hn : s.cap ≤ 256) (hj : j < s.cap)
    (x : Num) : applyInput (input (.sample j) x) s =
      .next (((s.present (encode (.sample j)) (.num x) s.pending).setSlot j
        { s.V j with phase := (envelope s (s.V j) x).1 }).emit (.dout (envelope s (s.V j) x).2)) :=
  (applyInput_input hr (Instr.wf_sample hn hj) x).trans (execSample_eq hj rfl)

/-- SAMPLE of a slot of the file completes with a shaped sample, and the next command finds as many slots and no
mark. -/
theorem applyInput_sample_frame {s : State} {j : Nat} (hr : s.refused = none) (hn : s.cap ≤ 256) (hj : j < s.cap)
    (x : Num) : ∃ t y, applyInput (input (.sample j) x) s = .next t ∧ t.out = .dout y ∧ t.refused = none ∧
      t.cap = s.cap :=
  ⟨_, _, applyInput_sample hr hn hj x, rfl, hr, by simp⟩

/-- ADVANCE by a time step above zero. -/
theorem applyInput_advance {s : State} {d : Num} (hr : s.refused = none) (hd : 0 < d) :
    ∃ t, applyInput (input .advance d) s = .next t ∧ t.out = .nothing :=
  ⟨_, (applyInput_input hr rfl d).trans (execAdvance_eq rfl hd), rfl⟩

/-- READ_VOICE of a slot of the file, whatever `DIN` carries (30_encoding.md R76). -/
theorem applyInput_readVoice {s : State} {j : Nat} (hr : s.refused = none) (hn : s.cap ≤ 256) (hj : j < s.cap)
    (d : DataIn) : applyInput (.command (encode (.readVoice j)) d) s =
      .next ((s.present (encode (.readVoice j)) d s.pending).emit
        (.vout (s.V j).phase.code (s.V j).elapsed (s.V j).rel (s.V j).freq)) :=
  (applyInput_command hr (decode_encode (Instr.wf_readVoice hn hj))).trans (execReadVoice_eq hj)

/-- The shaped sample is the raw sample times the envelope gain (41_envelope.md R151). -/
theorem envelope_sample (s : State) (v : Slot) (x : Num) : (envelope s v x).2 = x * gain s v := by
  unfold envelope gain
  cases v.phase with
  | attack => split_ifs <;> simp
  | decay => split_ifs <;> simp
  | sustain => rfl
  | release => split_ifs <;> simp [mul_assoc]
  | off => simp

/-! ### The host in its ranges -/

/-- An upstream event becomes a note command with the host's frequency, or nothing (30_encoding.md R85). -/
theorem eventInput_some {h : HostParams} {st p x : BitVec 8} {c : HostInput} (he : eventInput h st p x = some c) :
    c = input .noteOn (h.freqOf p) ∨ c = input .noteOff (h.freqOf p) := by
  unfold eventInput at he
  split_ifs at he
  · exact .inl (Option.some.inj he).symm
  · exact .inr (Option.some.inj he).symm

/-- The command of an event whose pitch has a frequency above zero completes. -/
theorem applyInput_event {h : HostParams} {s : State} {st p x : BitVec 8} {c : HostInput} (hr : s.refused = none)
    (hf : 0 < h.freqOf p) (he : eventInput h st p x = some c) : ∃ t, applyInput c s = .next t := by
  obtain rfl | rfl := eventInput_some he
  · rw [applyInput_input hr rfl]
    exact exec_of_inContract ⟨rfl, _, rfl, hf⟩
  · rw [applyInput_input hr rfl]
    exact exec_of_inContract ⟨rfl, _, rfl, hf⟩

/-- The command of an event whose pitch has no frequency above zero is refused with RF5. -/
theorem applyInput_event_nonpos {h : HostParams} {s : State} {st p x : BitVec 8} {c : HostInput}
    (hr : s.refused = none) (hf : h.freqOf p ≤ 0) (he : eventInput h st p x = some c) :
    applyInput c s = .refused (.outOfContract .badFrequency) := by
  obtain rfl | rfl := eventInput_some he
  · exact (applyInput_input hr rfl _).trans (execNoteOn_nonpos rfl hf)
  · exact (applyInput_input hr rfl _).trans (execNoteOff_nonpos rfl hf)

/-- SAMPLE of any slots of the file and then ADVANCE: one shaped sample for each, and no result of the ADVANCE
(30_encoding.md R83). -/
theorem runInputs_samples_advance (raw : Nat → Num) {d : Num} (hd : 0 < d) (js : List Nat) :
    ∀ s : State, s.refused = none → s.cap ≤ 256 → (∀ j ∈ js, j < s.cap) →
      ∃ (t : State) (ys : List Num),
        runInputs ((js.map fun j => input (.sample j) (raw j)) ++ [input .advance d]) s =
          .next (t, ys.map .dout ++ [.nothing]) ∧ ys.length = js.length := by
  induction js with
  | nil =>
    intro s hr _ _
    obtain ⟨t, ht, hout⟩ := applyInput_advance hr hd
    exact ⟨t, [], hout ▸ runInputs_cons ht rfl, rfl⟩
  | cons j js ih =>
    intro s hr hn hjs
    obtain ⟨t, y, hstep, hout, hr', hcap⟩ := applyInput_sample_frame hr hn (hjs j List.mem_cons_self) (raw j)
    obtain ⟨u, ys, hrun, hlen⟩ := ih t hr' (hcap ▸ hn) fun k hk => hcap ▸ hjs k (List.mem_cons_of_mem j hk)
    exact ⟨u, y :: ys, by simpa [hout] using runInputs_cons hstep hrun, congrArg (· + 1) hlen⟩

/-- The slot file, read slot by slot. -/
theorem State.map_V_range (s : State) : (List.range s.cap).map s.V = s.slots := by
  refine List.ext_getElem (by simp [State.cap]) fun k _ hk => ?_
  simp [State.V, hk]

/-- As many indices as slots satisfy a condition on slots. -/
theorem State.length_filter_V (s : State) (p : Slot → Bool) :
    ((List.range s.cap).filter fun i => p (s.V i)).length = (s.slots.filter p).length := by
  rw [← s.map_V_range, List.filter_map, List.length_map]; rfl

/-- The frame of the sounding slots completes, with one shaped sample for each of them (70_reset_and_hazards.md R214,
H3 and H4). -/
theorem runInputs_soundingFrame {s : State} (hr : s.refused = none) (hn : s.cap ≤ 256) {d : Num} (hd : 0 < d)
    (raw : Nat → Num) : ∃ (t : State) (ys : List Num),
      runInputs (soundingFrame s d raw) s = .next (t, ys.map .dout ++ [.nothing]) ∧
        ys.length = (s.slots.filter fun v => v.phase ≠ .off).length := by
  obtain ⟨t, ys, hrun, hlen⟩ := runInputs_samples_advance raw hd
    ((List.range s.cap).filter fun i => (s.V i).phase ≠ .off) s hr hn fun j hj =>
      List.mem_range.1 (List.mem_of_mem_filter hj)
  exact ⟨t, ys, hrun, hlen.trans (s.length_filter_V fun v => v.phase ≠ .off)⟩

/-- Settles O53: an event is a note command on a frequency the host keeps above zero, and its frame is a sounding frame
with a time step above zero. -/
theorem hostInItsRangesStaysInContract : Obligations.HostInItsRangesStaysInContract := by
  intro h s hr hn
  refine ⟨fun ⟨hrate, hfreq⟩ => ⟨fun _ p _ _ he => applyInput_event hr (hfreq p) he, fun osc now => ?_⟩,
    fun _ _ _ _ hf he => applyInput_event_nonpos hr hf he⟩
  exact runInputs_soundingFrame hr hn (one_div_pos.2 hrate) _

/-! ### Runs at the ports -/

/-- One input at the ports, read under the encoding, and its result driven under it. -/
theorem runPins_singleton {e : NumEnc} {c : PinInput} {s t : State} (h : applyInput (readPins e c) s = .next t) :
    runPins e [c] s = .next (t, [driveResult e t.out]) :=
  runPins_of_runInputs (cs := [c]) (runInputs_cons h rfl)

/-- Settles O54: at the ports SAMPLE is SAMPLE of the Num its pattern encodes, and READ_VOICE reads no pattern. -/
theorem portsCarryNumsInTheEncoding : Obligations.PortsCarryNumsInTheEncoding := by
  intro e s j he hr hn hj
  refine ⟨fun v w b hv hw => NumEnc_legal_injective he hv hw, fun x b hx => ?_, fun b => ?_⟩
  · have hstep := applyInput_sample hr hn hj x
    rw [envelope_sample] at hstep
    have hpin : readPins e (.command (encode (.sample j)) b) = input (.sample j) x :=
      readPins_of_pinInput he (by simp [pinInput, hx])
    exact ⟨_, hstep, runPins_singleton (hpin ▸ hstep)⟩
  · refine ⟨_, ?_, runPins_singleton (c := .command _ b) (applyInput_readVoice hr hn hj (readPort e b))⟩
    rfl

/-- The patterns the host drives for commands with Nums are read as those commands with those Nums, under any legal
encoding. -/
theorem map_readPins_of_pinInput {e : NumEnc} (he : e.legal) {xs : List (Instr × Num)} {is : List PinInput}
    (h : xs.map (fun x => pinInput e x.1 x.2) = is.map some) :
    is.map (readPins e) = xs.map fun x => input x.1 x.2 := by
  induction xs generalizing is with
  | nil => rw [List.map_eq_nil_iff.1 h.symm]; rfl
  | cons x xs ih =>
    obtain ⟨c, cs, rfl, hc, hcs⟩ := List.map_eq_cons_iff.1 h.symm
    exact congrArg₂ List.cons (readPins_of_pinInput he hc.symm) (ih hcs.symm)

/-- A block with illegal parameters of its own is refused with RF7, before it reads any input. -/
theorem runBlock_illegal {c : VaegParams} (h : ¬ c.block.legal) (is : List PinInput) :
    runBlock c is = .refused (.outOfContract .badConfig) := by
  rw [runBlock, resetBlock_illegal h]

/-- A block with legal parameters of its own runs the host's inputs from its reset state. -/
theorem runBlock_legal {c : VaegParams} (h : c.block.legal) (is : List PinInput) :
    runBlock c is = runPins c.numEnc is (State.resetWith c.block) := by
  rw [runBlock, resetBlock_legal h]

/-- A run refused on the Nums is refused at the ports for the same reason. -/
theorem runPins_refused {e : NumEnc} {cs : List PinInput} {s : State} {r : Refusal}
    (h : runInputs (cs.map (readPins e)) s = .refused r) : runPins e cs s = .refused r := by
  rw [runPins, h]; rfl

/-- Settles O55: both blocks start in one reset state and read one sequence of Nums, so they make one run on the Nums,
and only the patterns on their result ports differ. -/
theorem encodingOfThePortsChangesNoState : Obligations.EncodingOfThePortsChangesNoState := by
  intro c c' xs is is' hblock he he' his his'
  by_cases hlegal : c.block.legal
  · rw [runBlock_legal hlegal, runBlock_legal (hblock ▸ hlegal), ← hblock]
    have hread := map_readPins_of_pinInput he his
    have hread' := map_readPins_of_pinInput he' his'
    cases hrun : runInputs (xs.map fun x => input x.1 x.2) (State.resetWith c.block) with
    | next r =>
      exact .inr ⟨r.1, r.2, runPins_of_runInputs (hread ▸ hrun), runPins_of_runInputs (hread' ▸ hrun)⟩
    | fault f => cases f
    | refused r =>
      exact .inl ⟨r, runPins_refused (hread ▸ hrun), runPins_refused (hread' ▸ hrun)⟩
  · exact .inl ⟨_, runBlock_illegal hlegal is, runBlock_illegal (hblock ▸ hlegal) is'⟩

end Sys2Proof.Machine

/-! ## The state and its rules

What reset leaves, the frame of a command and of a step, the invariant, and the order of the phases (10_state.md R20 to
R36). -/

namespace Sys2Proof.Machine

/-! ### Reset -/

theorem Slot.reset_good : Slot.reset.good := by
  simp [Slot.good, Slot.reset]

theorem resetWith_inv {p : Params} (h : p.legal) : (State.resetWith p).Inv where
  cap    := by simpa using ⟨h.1, h.2.1⟩
  unique := fun i _ j _ hpos => absurd hpos (by simp [Slot.reset])
  slots  := fun i _ => by simpa using Slot.reset_good
  cfg    := by
    obtain ⟨-, -, hattack, hdecay, hsustain, hone, hrelease⟩ := h
    exact ⟨hattack, hdecay, hrelease, hsustain, hone⟩

theorem resetWith_noDecay (p : Params) : (State.resetWith p).noDecayUnderCascade := fun _ i _ => by
  simp [Slot.reset]

theorem Params.reference_legal : Params.reference.legal := by
  norm_num [Params.legal, CfgIn.legal, Params.reference]

/-- With `N` in its range, the parameters of an `RST` are legal exactly when its `CFG_IN` is (70_reset_and_hazards.md
R211). -/
theorem params_legal_iff {s : State} (hlow : 1 ≤ s.cap) (hhigh : s.cap ≤ 256) (c : CfgIn) :
    (s.params c).legal ↔ c.legal :=
  ⟨fun h => h.2.2, fun h => ⟨hlow, hhigh, h⟩⟩

theorem step_rst {s : State} {c : CfgIn} {rest : List HostInput} (hr : s.refused = none)
    (hp : s.pending = .rst c :: rest) : step s = applyRst s c rest := by
  simp [step, nextInput, hr, hp]

theorem applyRst_legal {s : State} {c : CfgIn} (h : (s.params c).legal) (rest : List HostInput) :
    applyRst s c rest = .next { State.resetWith (s.params c) with pending := rest } := by
  rw [applyRst, resetBlock_legal h]

theorem applyRst_illegal {s : State} {c : CfgIn} (h : ¬ (s.params c).legal) (rest : List HostInput) :
    applyRst s c rest = .refused (.outOfContract .badConfig) := by
  rw [applyRst, resetBlock_illegal h]

/-! ### The refusal mark -/

/-- A marked state has no next state (60_exceptions.md R183). -/
theorem step_marked {s : State} {r : RefusalReason} (h : s.refused = some r) :
    step s = .refused (.outOfContract r) := by
  simp [step, nextInput, h, refuse]

theorem stepMarked_refused {s : State} {r : RefusalReason} (h : step s = .refused (.outOfContract r)) :
    stepMarked s = { s with refused := some r } := by
  rw [stepMarked, h, recordOutcome]

/-- A marked state is a fixed point of the marked step. -/
theorem stepMarked_fixed {s : State} {r : RefusalReason} (h : s.refused = some r) :
    Function.IsFixedPt stepMarked s := by
  rw [Function.IsFixedPt, stepMarked_refused (step_marked h), ← h]

/-! ### The frame of a command -/

theorem exec_next_cap {i : Instr} {s t : State} (h : exec i s = .next t) : t.cap = s.cap := by
  cases i with
  | advance =>
    obtain ⟨d, -, -, rfl⟩ := execAdvance_next h
    exact List.length_map _
  | sample j =>
    obtain ⟨x, -, -, rfl⟩ := execSample_next h
    simp
  | readVoice j =>
    obtain ⟨-, rfl⟩ := execReadVoice_next h
    rfl
  | noteOff =>
    obtain ⟨f, -, -, ⟨j, -, rfl⟩ | ⟨-, rfl⟩⟩ := execNoteOff_next h <;> simp
  | noteOn =>
    obtain ⟨f, -, -, ⟨j, -, rfl⟩ | ⟨-, rfl⟩⟩ := execNoteOn_next h <;> simp

/-- A completed command has written slots and the result ports at most (10_state.md R32). -/
theorem exec_next_frame {i : Instr} {s t : State} (h : exec i s = .next t) :
    t = { s with slots := t.slots, out := t.out } := by
  cases i with
  | advance =>
    obtain ⟨d, -, -, rfl⟩ := execAdvance_next h
    rfl
  | sample j =>
    obtain ⟨x, -, -, rfl⟩ := execSample_next h
    rfl
  | readVoice j =>
    obtain ⟨-, rfl⟩ := execReadVoice_next h
    rfl
  | noteOff =>
    obtain ⟨f, -, -, ⟨j, -, rfl⟩ | ⟨-, rfl⟩⟩ := execNoteOff_next h <;> rfl
  | noteOn =>
    obtain ⟨f, -, -, ⟨j, -, rfl⟩ | ⟨-, rfl⟩⟩ := execNoteOn_next h <;> rfl

theorem exec_next_cfg {i : Instr} {s t : State} (h : exec i s = .next t) :
    t.cfgAttack = s.cfgAttack ∧ t.cfgDecay = s.cfgDecay ∧ t.cfgSustain = s.cfgSustain ∧
      t.cfgRelease = s.cfgRelease := by
  rw [exec_next_frame h]
  exact ⟨rfl, rfl, rfl, rfl⟩

theorem exec_next_cascade {i : Instr} {s t : State} (h : exec i s = .next t) : t.cascade = s.cascade := by
  rw [exec_next_frame h]

theorem exec_next_refused {i : Instr} {s t : State} (h : exec i s = .next t) : t.refused = s.refused := by
  rw [exec_next_frame h]

/-! ### The phases -/

/-- The phase SAMPLE leaves: the one it found, or one transition of 41_envelope.md R140, R150. -/
theorem envelope_phase_cases (s : State) (v : Slot) (x : Num) :
    (envelope s v x).1 = v.phase ∨
      (v.phase = .attack ∧ (envelope s v x).1 = .decay ∧ s.cascade = false) ∨
      (v.phase = .attack ∧ (envelope s v x).1 = .sustain ∧ s.cascade = true) ∨
      (v.phase = .decay ∧ (envelope s v x).1 = .sustain) ∨
      (v.phase = .release ∧ (envelope s v x).1 = .off) := by
  cases hp : v.phase with
  | attack =>
    by_cases hramp : 0 < s.cfgAttack ∧ v.elapsed < s.cfgAttack
    · simp [envelope_attack_ramp x hp hramp]
    · cases hc : s.cascade with
      | false => simp [envelope_attack_over x hp hc hramp]
      | true  => simp [envelope_attack_cascade x hp hc hramp]
  | decay => simp [envelope, hp]
  | sustain => simp [envelope_sustain x hp]
  | release =>
    by_cases hfade : 0 < s.cfgRelease ∧ v.elapsed - v.rel < s.cfgRelease
    · simp [envelope_release_fade x hp hfade]
    · simp [envelope_release_over x hp hfade]
  | off => simp [envelope_off x hp]

/-- SAMPLE never moves a phase back (10_state.md R34). -/
theorem rank_le_rank_envelope (s : State) (v : Slot) (x : Num) : v.phase.rank ≤ (envelope s v x).1.rank := by
  obtain h | ⟨hp, h, -⟩ | ⟨hp, h, -⟩ | ⟨hp, h⟩ | ⟨hp, h⟩ := envelope_phase_cases s v x
  · rw [h]
  all_goals rw [hp, h]; decide

/-- SAMPLE starts no release. -/
theorem phase_eq_release_of_envelope {s : State} {v : Slot} {x : Num} (h : (envelope s v x).1 = .release) :
    v.phase = .release := by
  obtain hs | ⟨-, hs, -⟩ | ⟨-, hs, -⟩ | ⟨-, hs⟩ | ⟨-, hs⟩ := envelope_phase_cases s v x
  · exact hs.symm.trans h
  all_goals exact absurd (hs.symm.trans h) (by decide)

/-- SAMPLE wakes no Off slot. -/
theorem phase_ne_off_of_envelope {s : State} {v : Slot} {x : Num} (h : (envelope s v x).1 ≠ .off) :
    v.phase ≠ .off :=
  fun hp => h (congrArg Prod.fst (envelope_off x hp))

/-- The slot NOTE_OFF takes is held. -/
theorem held_of_noteOffTarget {s : State} {f : Num} {j : Nat} (h : noteOffTarget s f = some j) :
    (s.V j).phase = .attack ∨ (s.V j).phase = .decay ∨ (s.V j).phase = .sustain := by
  simpa using (noteOffTarget_eq_some.1 h).2.2.1

theorem rank_le_rank_released {v : Slot} (h : v.phase = .attack ∨ v.phase = .decay ∨ v.phase = .sustain) :
    v.phase.rank ≤ v.released.phase.rank := by
  show v.phase.rank ≤ Phase.release.rank
  obtain h | h | h := h <;> rw [h] <;> decide

/-! ### The time of a slot -/

theorem Slot.elapsed_le_advanced {d : Num} (hd : 0 ≤ d) (v : Slot) : v.elapsed ≤ (v.advanced d).elapsed := by
  by_cases hp : v.phase = .off
  · rw [Slot.advanced_off hp]
  · rw [Slot.advanced_sounding hp]
    exact le_add_of_nonneg_right hd

/-! ### The invariant of 10_state.md R33, slot by slot -/

theorem Slot.started_good {f : Num} (hf : 0 < f) : (Slot.started f).good := by
  simp [Slot.good, Slot.started, hf, hf.le]

theorem Slot.good.released {v : Slot} (h : v.good) (hp : v.phase ≠ .off) : v.released.good := by
  obtain ⟨helapsed, -, hfreq, hbound⟩ := h
  exact ⟨helapsed, fun _ => ⟨helapsed, le_rfl⟩, hfreq, fun _ => hbound hp⟩

theorem Slot.good.advanced {v : Slot} {d : Num} (h : v.good) (hd : 0 ≤ d) : (v.advanced d).good := by
  obtain ⟨helapsed, hrel, hfreq, hbound⟩ := h
  have hle := v.elapsed_le_advanced hd
  simp only [Slot.good, Slot.advanced_phase, Slot.advanced_rel, Slot.advanced_freq]
  exact ⟨helapsed.trans hle, fun hp => ⟨(hrel hp).1, (hrel hp).2.trans hle⟩, hfreq, hbound⟩

theorem Slot.good.sampled {v : Slot} (h : v.good) (s : State) (x : Num) :
    Slot.good { v with phase := (envelope s v x).1 } := by
  obtain ⟨helapsed, hrel, hfreq, hbound⟩ := h
  exact ⟨helapsed, fun hp => hrel (phase_eq_release_of_envelope hp), hfreq,
    fun hp => hbound (phase_ne_off_of_envelope hp)⟩

/-- A command that completes leaves a good slot good. -/
theorem exec_next_good {i : Instr} {s t : State} {k : Nat} (hx : exec i s = .next t) (h : (s.V k).good) :
    (t.V k).good := by
  cases exec_slot hx k with
  | started f _ _ hf _ ht => exact ht ▸ Slot.started_good hf
  | released f _ _ _ hj ht =>
    have hp : (s.V k).phase ≠ .off := by
      obtain hp | hp | hp := held_of_noteOffTarget hj <;> simp [hp]
    exact ht ▸ h.released hp
  | advanced d _ _ hd ht => exact ht ▸ h.advanced hd.le
  | sampled x _ _ _ ht => exact ht ▸ h.sampled s x
  | same ht => exact ht ▸ h

/-! ### The invariant of 10_state.md R33, unique frequencies -/

/-- A command writes a frequency only as NOTE_ON does, in its target slot. -/
theorem exec_next_freq {i : Instr} {s t : State} (hx : exec i s = .next t) (k : Nat) :
    (t.V k).freq = (s.V k).freq ∨
      ∃ f, s.din = .num f ∧ 0 < f ∧ noteOnTarget s f = some k ∧ (t.V k).freq = f := by
  cases exec_slot hx k with
  | started f _ hd hf hj ht => exact .inr ⟨f, hd, hf, hj, by rw [ht]; rfl⟩
  | released f _ _ _ _ ht => exact .inl (by rw [ht]; rfl)
  | advanced d _ _ _ ht => exact .inl (by rw [ht, Slot.advanced_freq])
  | sampled x _ _ _ ht => exact .inl (by rw [ht])
  | same ht => exact .inl (by rw [ht])

/-- Under R33 (a) no slot but the one NOTE_ON takes is bound to its frequency. -/
theorem eq_noteOnTarget_of_freq {s : State} {f : Num} {j k : Nat} (hu : s.uniqueFreq) (hf : 0 < f)
    (hj : noteOnTarget s f = some j) (hk : k < s.cap) (hkf : (s.V k).freq = f) : k = j := by
  obtain ⟨hjc, ⟨hjf, -⟩ | ⟨hnone, -⟩⟩ := noteOnTarget_eq_some.1 hj
  · exact hu k hk j hjc (hkf ▸ hf) (hkf.trans hjf.symm)
  · exact absurd hkf (hnone k hk)

theorem exec_next_uniqueFreq {i : Instr} {s t : State} (hx : exec i s = .next t) (hu : s.uniqueFreq) :
    t.uniqueFreq := by
  intro a ha b hb hpos heq
  rw [exec_next_cap hx] at ha hb
  obtain hfa | ⟨f, hd, hf, hta, hfa⟩ := exec_next_freq hx a
  · obtain hfb | ⟨g, -, hg, htb, hfb⟩ := exec_next_freq hx b
    · exact hu a ha b hb (hfa ▸ hpos) (hfa ▸ hfb ▸ heq)
    · exact eq_noteOnTarget_of_freq hu hg htb ha (hfa.symm.trans (heq.trans hfb))
  · obtain hfb | ⟨g, hd', hg, htb, hfb⟩ := exec_next_freq hx b
    · exact (eq_noteOnTarget_of_freq hu hf hta hb (hfb.symm.trans (heq.symm.trans hfa))).symm
    · obtain rfl : f = g := hfa.symm.trans (heq.trans hfb)
      exact Option.some.inj (hta.symm.trans htb)

/-! ### The invariant under a step -/

theorem exec_next_inv {i : Instr} {s t : State} (hx : exec i s = .next t) (h : s.Inv) : t.Inv where
  cap    := exec_next_cap hx ▸ h.cap
  unique := exec_next_uniqueFreq hx h.unique
  slots  := fun k hk => exec_next_good hx (h.slots k (exec_next_cap hx ▸ hk))
  cfg    := by
    obtain ⟨hattack, hdecay, hsustain, hrelease⟩ := exec_next_cfg hx
    simpa only [State.cfgGood, hattack, hdecay, hsustain, hrelease] using h.cfg

/-- The ports and the host's sequence of inputs are no part of the invariant. -/
theorem State.Inv.present {s : State} (h : s.Inv) (w : Word) (d : DataIn) (rest : List HostInput) :
    (s.present w d rest).Inv := ⟨h.cap, h.unique, h.slots, h.cfg⟩

theorem State.Inv.idle {s : State} (h : s.Inv) : (idle s).Inv := ⟨h.cap, h.unique, h.slots, h.cfg⟩

theorem State.Inv.withPending {s : State} (h : s.Inv) (rest : List HostInput) :
    State.Inv { s with pending := rest } := ⟨h.cap, h.unique, h.slots, h.cfg⟩

/-- Settles O14: a step waits, runs one command, or resets the block, and each keeps the invariant. -/
theorem stepKeepsTheInvariant : Obligations.StepKeepsTheInvariant := by
  intro s t h hstep
  obtain ⟨-, ⟨-, rfl⟩ | ⟨w, d, rest, i, -, -, hx⟩ | ⟨c, rest, -, hlegal, rfl⟩⟩ := step_next hstep
  · exact h.idle
  · exact exec_next_inv hx (h.present w d rest)
  · exact (resetWith_inv hlegal).withPending rest

/-! ### The mark, the registers and the fields under a step or a command -/

/-- Settles O13: a marked state is a fixed point of the marked step. -/
theorem refusalMarkIsSticky : Obligations.RefusalMarkIsSticky := by
  refine ⟨fun s r h => by rw [stepMarked_refused h], fun s r k h => ?_⟩
  rw [((stepMarked_fixed h).iterate k).eq]
  exact ⟨h, fun t => by simp [step_marked h]⟩

/-- Settles O16: a command keeps the registers by its frame, and `RST` takes `N` and `P_CASCADE` from the running
block. -/
theorem stepKeepsParametersAndConfiguration : Obligations.StepKeepsParametersAndConfiguration := by
  intro s t hstep
  obtain ⟨hr, ⟨-, rfl⟩ | ⟨w, d, rest, i, -, -, hx⟩ | ⟨c, rest, hp, -, rfl⟩⟩ := step_next hstep
  · exact ⟨rfl, rfl, hr, fun _ => ⟨rfl, rfl, rfl, rfl⟩⟩
  · have hcap := exec_next_cap hx
    have hcascade := exec_next_cascade hx
    have hmark := exec_next_refused hx
    have hcfg := exec_next_cfg hx
    exact ⟨hcap, hcascade, hmark.trans hr, fun _ => hcfg⟩
  · exact ⟨State.cap_resetWith (s.params c), rfl, rfl, fun hno => absurd (by rw [hp]; rfl) (hno c)⟩

/-- Settles O38, by the frame of each command. -/
theorem commandsTouchOnlySlotsAndResult : Obligations.CommandsTouchOnlySlotsAndResult :=
  fun _ _ _ hx => ⟨exec_next_cap hx, exec_next_frame hx⟩

/-- Settles O39, by what a completed command can have done to one slot. -/
theorem fieldsWrittenByTheirCommandsOnly : Obligations.FieldsWrittenByTheirCommandsOnly := by
  intro i s t k hx
  cases exec_slot hx k with
  | started f hi => simp [hi]
  | released f hi _ _ _ ht => simp [hi, ht, Slot.released]
  | advanced d hi _ _ ht => simp [hi, ht]
  | sampled x hi _ _ ht => simp [hi, ht]
  | same ht => simp [ht]

/-- Settles O41: NOTE_OFF takes held slots only, and SAMPLE moves a phase forward. -/
theorem phasesMoveForwardUntilANewNote : Obligations.PhasesMoveForwardUntilANewNote := by
  intro i s t k hx
  cases exec_slot hx k with
  | started f hi _ _ _ ht => exact ⟨fun h => absurd hi h, fun _ => .inr (by rw [ht]; rfl)⟩
  | released f hi _ _ hj ht => exact ⟨fun _ => ht ▸ rank_le_rank_released (held_of_noteOffTarget hj), by simp [hi]⟩
  | advanced d hi _ _ ht => exact ⟨fun _ => by simp [ht], by simp [hi]⟩
  | sampled x hi _ _ ht => exact ⟨fun _ => ht ▸ rank_le_rank_envelope s (s.V k) x, by simp [hi]⟩
  | same ht => exact ⟨fun _ => by rw [ht], fun _ => .inl ht⟩

/-- Settles O42: of the other commands ADVANCE alone writes `elapsed`, and it adds to that of a sounding slot. -/
theorem elapsedOnlyGrowsUntilANewNote : Obligations.ElapsedOnlyGrowsUntilANewNote := by
  intro i s t k hx hi
  cases exec_slot hx k with
  | started f h => exact absurd h hi
  | released f _ _ _ _ ht => simp [ht, Slot.released]
  | advanced d _ _ hd ht =>
    exact ht ▸ ⟨Slot.elapsed_le_advanced hd.le _, fun hp => by rw [Slot.advanced_off hp]⟩
  | sampled x _ _ _ ht => simp [ht]
  | same ht => simp [ht]

/-! ### Two runs that differ in CFG_DECAY -/

/-- The same state with another value in `CFG_DECAY`. -/
def State.withDecay (d : Num) (s : State) : State := { s with cfgDecay := d }

@[simp] theorem State.withDecay_out (d : Num) (s : State) : (s.withDecay d).out = s.out := rfl

theorem noteOnTarget_withDecay (d f : Num) (s : State) : noteOnTarget (s.withDecay d) f = noteOnTarget s f := rfl

theorem noteOffTarget_withDecay (d f : Num) (s : State) : noteOffTarget (s.withDecay d) f = noteOffTarget s f := rfl

/-- A command that checks an operand first commutes with a change of state when what follows the check does. -/
theorem withOperand_mapNext {α : Type} {g : State → State} {e : Except RefusalReason α} {k k' : α → Outcome}
    (h : ∀ a, k' a = mapNext g (k a)) : withOperand e k' = mapNext g (withOperand e k) := by
  cases e with
  | ok a    => exact h a
  | error r => rfl

/-- No command reads `CFG_DECAY` (10_state.md R27). -/
theorem exec_withDecay (i : Instr) (d : Num) (s : State) :
    exec i (s.withDecay d) = mapNext (State.withDecay d) (exec i s) := by
  cases i with
  | advance => exact withOperand_mapNext fun _ => rfl
  | sample j => exact withOperand_mapNext fun _ => withOperand_mapNext fun _ => rfl
  | readVoice j => exact withOperand_mapNext fun _ => rfl
  | noteOff =>
    refine withOperand_mapNext fun f => ?_
    rw [noteOffTarget_withDecay]
    cases noteOffTarget s f <;> rfl
  | noteOn =>
    refine withOperand_mapNext fun f => ?_
    rw [noteOnTarget_withDecay]
    cases noteOnTarget s f <;> rfl

theorem applyInput_marked {s : State} {r : RefusalReason} (hr : s.refused = some r) (c : HostInput) :
    applyInput c s = .refused (.outOfContract r) :=
  step_marked (s := { s with pending := c :: s.pending }) hr

/-- The step of an unmarked block on a command, whether its word decodes or not. -/
theorem step_command {s : State} {w : Word} {v : DataIn} {rest : List HostInput} (hr : s.refused = none)
    (hp : s.pending = .command w v :: rest) :
    step s = withOperand (decode s.cap w) fun i => exec i (s.present w v rest) := by
  rw [step, nextInput_command hr hp]
  rfl

theorem applyInput_unmarked {s : State} (hr : s.refused = none) (w : Word) (v : DataIn) :
    applyInput (.command w v) s = withOperand (decode s.cap w) fun i => exec i (s.present w v s.pending) :=
  step_command (s := { s with pending := .command w v :: s.pending }) hr rfl

theorem applyInput_withDecay (w : Word) (v : DataIn) (d : Num) (s : State) :
    applyInput (.command w v) (s.withDecay d) = mapNext (State.withDecay d) (applyInput (.command w v) s) := by
  cases hr : s.refused with
  | none =>
    rw [applyInput_unmarked hr, applyInput_unmarked (s := s.withDecay d) hr]
    exact withOperand_mapNext fun i => exec_withDecay i d (s.present w v s.pending)
  | some r =>
    rw [applyInput_marked hr, applyInput_marked (s := s.withDecay d) hr, mapNext]

/-- Settles O44, by induction on the inputs: each command commutes with the change of `CFG_DECAY`. -/
theorem decayIsNeverRead : Obligations.DecayIsNeverRead := by
  intro cs s d hcs
  show runInputs cs (s.withDecay d) = mapNext (fun r => (r.1.withDecay d, r.2)) (runInputs cs s)
  induction cs generalizing s with
  | nil => rfl
  | cons c cs ih =>
    obtain ⟨w, v, rfl⟩ := hcs c List.mem_cons_self
    have hrest := fun t => ih t fun c hc => hcs c (List.mem_cons_of_mem _ hc)
    rw [runInputs, applyInput_withDecay, runInputs]
    cases applyInput (.command w v) s with
    | fault f => rfl
    | refused r => rfl
    | next t =>
      simp only [mapNext, hrest, State.withDecay_out]
      cases runInputs cs t <;> rfl

/-! ### What reset leaves -/

/-- Settles O6: a legal reset answers `State.resetWith`, whose fields are the parameters. -/
theorem resetLeavesTheStatedState : Obligations.ResetLeavesTheStatedState :=
  fun p hp => ⟨State.resetWith p, resetBlock_legal hp, State.cap_resetWith p, fun i _ => State.V_resetWith p i,
    rfl, rfl, rfl, rfl, rfl, rfl⟩

/-- Settles O8: the step is the reset sequence, which refuses exactly an illegal `CFG_IN`. -/
theorem rstResetsTheRunningBlock : Obligations.RstResetsTheRunningBlock := by
  intro s c rest hr hp hlow hhigh
  rw [step_rst hr hp, ← params_legal_iff hlow hhigh]
  exact ⟨fun hc => applyRst_legal hc rest, fun hc => applyRst_illegal hc rest⟩

/-- Settles O9, by the invariant of `State.resetWith`. -/
theorem resetMeetsTheInvariant : Obligations.ResetMeetsTheInvariant :=
  ⟨fun p hp => ⟨resetWith_inv hp, resetWith_noDecay p⟩, resetWith_inv Params.reference_legal⟩

end Sys2Proof.Machine

/-! ## The command stream

The step of an unmarked block on a command whose word decodes (20_memory.md R54, R57). -/

namespace Sys2Proof.Machine

/-- Settles O10: of the step on any command word, a word that decodes leaves the execution of its command. -/
theorem stepRunsTheDecodedCommand : Obligations.StepRunsTheDecodedCommand := by
  intro s w d rest i hr hp hd
  calc step s = withOperand (decode s.cap w) fun j => exec j (s.present w d rest) := step_command hr hp
    _ = exec i (s.present w d rest) := by rw [hd, withOperand_ok]

end Sys2Proof.Machine

/-! ## The encoding

Decoding and encoding are inverse to each other (30_encoding.md R81), the legal words and the reasons of the rejected
ones (R74 to R80), and what stands on the command port: undecodable words, patterns that encode no Num, upstream events,
FRAME and SCAN (R76, R83 to R85). -/

namespace Sys2Proof

open Sys2Proof.Machine

/-! ### Decoding as conditions on the word -/

/-- The opcode map answers a command of that opcode, whose slot, if it has one, is the one at hand. -/
theorem instrOf_some {op : BitVec 4} {s : Nat} {i : Instr} (h : instrOf op s = some i) :
    op = i.opcode ∧ ∀ j, i.slot? = some j → j = s := by
  unfold instrOf at h
  split_ifs at h with hop hop hop hop hop <;> cases h <;> simp [hop, Instr.opcode, Instr.slot?]

/-- The opcode map names the five opcodes of 30_encoding.md R72. -/
theorem instrOf_eq_none {w : Word} {s : Nat} : instrOf (opField w) s = none ↔ wordOp w ∉ [1, 2, 3, 8, 9] := by
  rw [instrOf_eq]
  split_ifs <;> simp_all

/-- A `SLOT` field that passes the last check of decoding is the command's slot, or zero where it has none, and the
slot is in the file. -/
theorem checkSlot_eq_ok {n : Nat} {w : Word} {i i' : Instr} (hslot : ∀ j, i.slot? = some j → j = slotField w)
    (h : checkSlot n w i = .ok i') : i = i' ∧ slotField w = i.slot?.getD 0 ∧ i.slotInFile n = true := by
  unfold checkSlot at h
  split at h
  · rename_i hnone
    split_ifs at h with hzero
    exact ⟨Except.ok.inj h, by simpa [hnone] using hzero, by simp [Instr.slotInFile, hnone]⟩
  · rename_i j hsome
    split_ifs at h with hrange
    exact ⟨Except.ok.inj h, by simp [hsome, hslot j hsome], by simpa [Instr.slotInFile, hsome] using hrange⟩

/-- A word that decodes to a command holds its opcode, zero reserved bits and its slot, and the slot is in the file. -/
theorem decode_ok_fields {n : Nat} {w : Word} {i : Instr} (h : decode n w = .ok i) :
    opField w = i.opcode ∧ rsvdField w = 0 ∧ slotField w = i.slot?.getD 0 ∧ i.slotInFile n = true := by
  unfold decode at h
  split at h
  · cases h
  · rename_i i' hi
    obtain ⟨hop, hj⟩ := instrOf_some hi
    split_ifs at h with hrsvd
    obtain ⟨rfl, hslot, hfile⟩ := checkSlot_eq_ok hj h
    exact ⟨hop, not_not.1 hrsvd, hslot, hfile⟩

/-- A slot read from a `SLOT` field fits one. -/
theorem slotFits_of_slotField {w : Word} {i : Instr} (h : slotField w = i.slot?.getD 0) : i.slotFits = true := by
  have hlt := slotField_lt w
  unfold Instr.slotFits
  split
  · rfl
  · rename_i j hj
    obtain rfl : slotField w = j := by simpa [hj] using h
    exact decide_eq_true hlt

/-- The word with a command's fields is the command's word (30_encoding.md R71, R81). -/
theorem encode_of_fields {w : Word} {i : Instr} (hop : opField w = i.opcode) (hrsvd : rsvdField w = 0)
    (hslot : slotField w = i.slot?.getD 0) : encode i = w := by
  apply BitVec.eq_of_toNat_eq
  calc (encode i).toNat = i.opcode.toNat * 2 ^ 28 + i.slot?.getD 0 := encode_toNat i (slotFits_of_slotField hslot)
    _ = wordOp w * 2 ^ 28 + wordRsvd w * 2 ^ 8 + wordSlot w := by
      rw [← opField_toNat, ← slotField_eq, hop, hslot, (rsvdField_eq_zero w).1 hrsvd, zero_mul, add_zero]
    _ = w.toNat := (word_of_fields w).symm

/-- The words that decode are the words of the well-formed commands, each with that one meaning (30_encoding.md R81). -/
theorem decode_eq_ok_iff {n : Nat} {w : Word} {i : Instr} : decode n w = .ok i ↔ i.wf n = true ∧ encode i = w := by
  constructor
  · intro h
    obtain ⟨hop, hrsvd, hslot, hfile⟩ := decode_ok_fields h
    exact ⟨Bool.and_eq_true_iff.2 ⟨slotFits_of_slotField hslot, hfile⟩, encode_of_fields hop hrsvd hslot⟩
  · rintro ⟨hwf, rfl⟩
    exact decode_encode hwf

/-- A well-formed command is well formed for the slots one `SLOT` field reaches. -/
theorem Instr.wf_min {n : Nat} {i : Instr} (h : i.wf n = true) : i.wf (min n 256) = true := by
  cases i <;> simp_all [Instr.wf, Instr.slotFits, Instr.slotInFile, Instr.slot?]

/-- Settles O1: a well-formed command is read back from its word, and the bounds on the capacity are not needed. -/
theorem decodeOfEncodedCommand : Obligations.DecodeOfEncodedCommand :=
  fun _ _ _ _ hwf => decode_encode hwf

/-- Settles O2: a word that decodes is the word of a well-formed command. -/
theorem encodeOfDecodedWord : Obligations.EncodeOfDecodedWord := by
  intro n w i h
  obtain ⟨hwf, hencode⟩ := decode_eq_ok_iff.1 h
  exact ⟨hencode, Instr.wf_min hwf⟩

/-! ### The rejected words -/

/-- The last check of decoding rejects a nonzero `SLOT` field of a command without slot, and a slot that is not in the
file (30_encoding.md R80). -/
theorem checkSlot_eq_error_iff {n : Nat} {w : Word} {i : Instr} {r : RefusalReason}
    (hslot : ∀ j, i.slot? = some j → j = slotField w) : checkSlot n w i = .error r ↔
      (r = .slotNotZero ∧ i.slot? = none ∧ wordSlot w ≠ 0) ∨ (r = .slotRange ∧ i.slot? ≠ none ∧ n ≤ wordSlot w) := by
  rw [← slotField_eq]
  unfold checkSlot
  split
  · rename_i hnone
    split_ifs with hzero <;> simp [hnone, hzero, eq_comm]
  · rename_i j hsome
    obtain rfl := hslot j hsome
    split_ifs with hrange <;> simp [hsome, hrange, eq_comm]

/-- The opcodes of the commands with and without a slot (30_encoding.md R72, R73). -/
theorem opcode_mem (i : Instr) : i.opcode.toNat ∈ [1, 2, 3, 8, 9] ∧ (i.opcode.toNat ∈ [1, 8, 9] ↔ i.slot? = none) ∧
    (i.opcode.toNat ∈ [2, 3] ↔ i.slot? ≠ none) := by
  cases i <;> simp [Instr.opcode, Instr.slot?]

/-- Which words decoding rejects for which reason, in the order of 30_encoding.md R80. -/
theorem decode_eq_error_iff {n : Nat} {w : Word} {r : RefusalReason} : decode n w = .error r ↔
    (r = .reservedOpcode ∧ wordOp w ∉ [1, 2, 3, 8, 9]) ∨
    (r = .reservedBits ∧ wordOp w ∈ [1, 2, 3, 8, 9] ∧ wordRsvd w ≠ 0) ∨
    (r = .slotNotZero ∧ wordOp w ∈ [1, 8, 9] ∧ wordRsvd w = 0 ∧ wordSlot w ≠ 0) ∨
    (r = .slotRange ∧ wordOp w ∈ [2, 3] ∧ wordRsvd w = 0 ∧ n ≤ wordSlot w) := by
  unfold decode
  split
  · rename_i hnone
    have hop := instrOf_eq_none.1 hnone
    simp_all [eq_comm]
  · rename_i i hi
    obtain ⟨hop, hslot⟩ := instrOf_some hi
    have hword : wordOp w = i.opcode.toNat := by rw [← opField_toNat, hop]
    obtain ⟨hlegal, hwithout, hwith⟩ := opcode_mem i
    rw [hword, hwithout, hwith]
    by_cases hrsvd : wordRsvd w = 0
    · rw [if_neg (not_not.2 ((rsvdField_eq_zero w).2 hrsvd)), checkSlot_eq_error_iff hslot]
      simp [hlegal, hrsvd]
    · rw [if_pos (mt (rsvdField_eq_zero w).1 hrsvd)]
      simp [hlegal, hrsvd, eq_comm]

/-- Settles O3: each clause is the condition of one reason. -/
theorem wordsRejectedByReasonInOrder : Obligations.WordsRejectedByReasonInOrder := by
  intro n w
  simp only [decode_eq_error_iff]
  refine ⟨by simp, by simp, by simp, by simp, ?_⟩
  rintro r (⟨rfl, -⟩ | ⟨rfl, -⟩ | ⟨rfl, -⟩ | ⟨rfl, -⟩) <;> simp

/-! ### The number of legal words -/

/-- The commands well formed for capacity `n`, as 30_encoding.md R78 lists them. -/
def legalInstrs (n : Nat) : List Instr :=
  [.noteOn, .noteOff, .advance] ++ (List.range n).map .sample ++ (List.range n).map .readVoice

theorem mem_legalInstrs {n : Nat} (hn : n ≤ 256) {i : Instr} : i ∈ legalInstrs n ↔ i.wf n = true := by
  cases i with
  | advance | noteOff | noteOn => simp [legalInstrs, Instr.wf, Instr.slotFits, Instr.slotInFile, Instr.slot?]
  | sample j | readVoice j =>
    simp [legalInstrs, Instr.wf, Instr.slotFits, Instr.slotInFile, Instr.slot?, maxSlots]
    omega

theorem length_legalInstrs (n : Nat) : (legalInstrs n).length = 3 + 2 * n := by
  simp [legalInstrs]
  omega

theorem nodup_legalInstrs (n : Nat) : (legalInstrs n).Nodup := by
  have hsample : ((List.range n).map Instr.sample).Nodup := List.nodup_range.map fun _ _ => Instr.sample.inj
  have hread : ((List.range n).map Instr.readVoice).Nodup := List.nodup_range.map fun _ _ => Instr.readVoice.inj
  simp [legalInstrs, List.nodup_append, hsample, hread]

/-- No two well-formed commands share a word. -/
theorem encode_injOn (n : Nat) : Set.InjOn encode {i | i.wf n = true} := by
  intro i hi i' hi' h
  exact Except.ok.inj ((decode_encode hi).symm.trans ((congrArg (decode n) h).trans (decode_encode hi')))

/-- The legal words are the words of the well-formed commands. -/
theorem legalWords_eq_image (n : Nat) : {w : Word | ∃ i, decode n w = .ok i} = encode '' {i | i.wf n = true} := by
  ext w
  simp [decode_eq_ok_iff]

/-- Settles O4: encoding is injective on the well-formed commands, and R78 lists those. -/
theorem legalWordCountIsThreePlusTwoN : Obligations.LegalWordCountIsThreePlusTwoN := by
  intro n _ hn
  have hlist : {i : Instr | i.wf n = true} = (legalInstrs n).toFinset := by
    ext i
    simp [mem_legalInstrs hn]
  calc Set.ncard {w : Word | ∃ i, decode n w = .ok i} = Set.ncard {i : Instr | i.wf n = true} := by
        rw [legalWords_eq_image, (encode_injOn n).ncard_image]
    _ = (legalInstrs n).length := by
        rw [hlist, Set.ncard_coe_finset, List.toFinset_card_of_nodup (nodup_legalInstrs n)]
    _ = 3 + 2 * n := length_legalInstrs n

/-- Settles O5, by running the decoder on the ten words. -/
theorem specWordsDecode : Obligations.SpecWordsDecode := by
  unfold Obligations.SpecWordsDecode
  decide

end Sys2Proof

namespace Sys2Proof.Machine

/-! ### Words and patterns the port refuses -/

/-- Settles O11: the step on a command word runs what decoding answers, and here it answers a reason. -/
theorem stepRefusesAnUndecodableWord : Obligations.StepRefusesAnUndecodableWord := by
  intro s w d rest r hr hp hd
  rw [step_command hr hp, hd, withOperand_error]

theorem readPort_of_none {e : NumEnc} {b : Pattern} (h : e.numOf b = none) : readPort e b = .notNum := by
  rw [readPort, h]

/-- The four commands that read `DIN` refuse a pattern that encodes no Num (30_encoding.md R76, RF8). -/
theorem exec_notNum {s : State} (hd : s.din = .notNum) {j : Nat} (hj : j < s.cap) {i : Instr}
    (hi : i ∈ [Instr.noteOn, .noteOff, .advance, .sample j]) : exec i s = .refused (.outOfContract .badNum) := by
  have hnum : numOperand s.din = .error .badNum := by rw [hd]; rfl
  have hpos : ∀ r, positiveOperand r s.din = .error .badNum := fun r => by rw [positiveOperand, hnum]
  simp only [List.mem_cons, List.not_mem_nil, or_false] at hi
  obtain rfl | rfl | rfl | rfl := hi
  · show execNoteOn s = _
    rw [execNoteOn, freqOperand, hpos, withOperand_error]
  · show execNoteOff s = _
    rw [execNoteOff, freqOperand, hpos, withOperand_error]
  · show execAdvance s = _
    rw [execAdvance, deltaOperand, hpos, withOperand_error]
  · show execSample j s = _
    rw [execSample, slotOperand_of_lt hj, withOperand_ok, hnum, withOperand_error]

/-- Settles O19: the pattern reads as no Num, which READ_VOICE alone does not look at. -/
theorem patternThatEncodesNoNum : Obligations.PatternThatEncodesNoNum := by
  intro e b s j he hd hj
  rw [readPort_of_none he] at hd
  exact ⟨fun i hi => exec_notNum hd hj hi, _, execReadVoice_eq hj⟩

/-! ### Upstream events -/

theorem eventInput_noteOn (h : HostParams) (p x : BitVec 8) :
    eventInput h 0x90#8 p x = some (input .noteOn (h.freqOf p)) := rfl

theorem eventInput_noteOff (h : HostParams) (p x : BitVec 8) :
    eventInput h 0x80#8 p x = some (input .noteOff (h.freqOf p)) := rfl

theorem eventInput_other {st : BitVec 8} (hon : st ≠ 0x90#8) (hoff : st ≠ 0x80#8) (h : HostParams) (p x : BitVec 8) :
    eventInput h st p x = none := by
  rw [eventInput, if_neg hon, if_neg hoff]

/-- Settles O52, by the command of each status. -/
theorem upstreamEventsBecomeNoteCommands : Obligations.UpstreamEventsBecomeNoteCommands :=
  fun h p x => ⟨eventInput_noteOn h p x, eventInput_noteOff h p x, fun _ hon hoff => eventInput_other hon hoff h p x⟩

/-! ### SCAN -/

/-- What READ_VOICE places on `VOUT` for a slot (40_voice_pool.md R114). -/
def Slot.report (v : Slot) : Result := .vout v.phase.code v.elapsed v.rel v.freq

/-- READ_VOICE of any slots of the file reports each of them and changes none. -/
theorem runInputs_readVoices (js : List Nat) : ∀ s : State, s.refused = none → s.cap ≤ 256 → (∀ j ∈ js, j < s.cap) →
    ∃ t, runInputs (js.map fun j => input (.readVoice j) 0) s = .next (t, js.map fun j => (s.V j).report) ∧
      t.slots = s.slots := by
  induction js with
  | nil => exact fun s _ _ _ => ⟨s, rfl, rfl⟩
  | cons j js ih =>
    intro s hr hn hjs
    have hstep := applyInput_readVoice hr hn (hjs j List.mem_cons_self) (.num 0)
    obtain ⟨u, hrun, hslots⟩ := ih
      ((s.present (encode (.readVoice j)) (.num 0) s.pending).emit (s.V j).report) hr hn
      fun k hk => hjs k (List.mem_cons_of_mem j hk)
    exact ⟨u, runInputs_cons hstep hrun, hslots⟩

/-- Settles O48: SCAN reads the indices in order, and the slots at these indices are the file. -/
theorem scanReportsEverySlot : Obligations.ScanReportsEverySlot := by
  intro s hr hn
  obtain ⟨t, hrun, hslots⟩ := runInputs_readVoices (List.range s.cap) s hr hn fun j hj => List.mem_range.1 hj
  have hreports : (List.range s.cap).map (fun j => (s.V j).report) = s.slots.map Slot.report := by
    rw [← s.map_V_range, List.map_map]; rfl
  exact ⟨t, hreports ▸ hrun, hslots⟩

/-! ### FRAME -/

/-- No command reads what stands on the result ports. -/
theorem exec_emit (i : Instr) (s : State) (r : Result) : exec i (s.emit r) = exec i s := by
  cases i <;> rfl

/-- The next command overwrites all that the ports hold of the last one. -/
theorem applyInput_ports (s : State) (w w' : Word) (d d' : DataIn) (r : Result) :
    applyInput (.command w d) ((s.present w' d' s.pending).emit r) = applyInput (.command w d) s := by
  cases hr : s.refused with
  | none =>
    rw [applyInput_unmarked hr, applyInput_unmarked (s := (s.present w' d' s.pending).emit r) hr]
    exact congrArg (withOperand (decode s.cap w)) (funext fun i => exec_emit i (s.present w d s.pending) r)
  | some q => rw [applyInput_marked hr, applyInput_marked (s := (s.present w' d' s.pending).emit r) hr]

/-- The frame that samples the slots `js`, then advances by `d` (30_encoding.md R83). -/
def frameOf (js : List Nat) (d : Num) (raw : Nat → Num) : List HostInput :=
  (js.map fun j => input (.sample j) (raw j)) ++ [input .advance d]

theorem frameInputs_eq (n : Nat) (d : Num) (raw : Nat → Num) : frameInputs n d raw = frameOf (List.range n) d raw := rfl

theorem soundingFrame_eq (s : State) (d : Num) (raw : Nat → Num) : soundingFrame s d raw =
    frameOf ((List.range s.cap).filter fun j => (s.V j).phase ≠ .off) d raw := rfl

theorem frameOf_cons (j : Nat) (js : List Nat) (d : Num) (raw : Nat → Num) :
    frameOf (j :: js) d raw = input (.sample j) (raw j) :: frameOf js d raw := rfl

/-- A frame begins with a command, so it runs alike whatever the ports hold. -/
theorem runInputs_frameOf_ports (js : List Nat) (d : Num) (raw : Nat → Num) (s : State) (w : Word) (v : DataIn)
    (r : Result) :
    runInputs (frameOf js d raw) ((s.present w v s.pending).emit r) = runInputs (frameOf js d raw) s := by
  cases js <;> simp [frameOf, runInputs, input, applyInput_ports]

/-- SAMPLE of an Off slot leaves its result on the ports and changes nothing else (41_envelope.md R147). -/
theorem applyInput_sample_off {s : State} {j : Nat} (hr : s.refused = none) (hn : s.cap ≤ 256) (hj : j < s.cap)
    (hoff : (s.V j).phase = .off) (x : Num) : applyInput (input (.sample j) x) s =
      .next ((s.present (encode (.sample j)) (.num x) s.pending).emit (.dout 0)) := by
  have hself := State.setSlot_phase_self (s := s.present (encode (.sample j)) (.num x) s.pending) hoff
  rw [applyInput_sample hr hn hj x, envelope_off x hoff]
  exact congrArg (fun t : State => Host.Outcome.next (t.emit (.dout 0))) hself

/-- SAMPLE wakes no Off slot, its own or another. -/
theorem off_of_exec_sample {s t : State} {j k : Nat} (hx : exec (.sample j) s = .next t)
    (hoff : (s.V k).phase = .off) : (t.V k).phase = .off := by
  cases exec_slot hx k with
  | sampled x _ _ _ ht => rw [ht, envelope_off x hoff]
  | same ht => rw [ht, hoff]
  | started _ hi | released _ hi | advanced _ hi => cases hi

theorem sumDout_cons (r : Result) (rs : List Result) : sumDout (r :: rs) = sumDout [r] + sumDout rs := by
  simp [sumDout]

/-- Leaving the SAMPLEs of Off slots out of a frame changes neither its last state nor the sum of its outputs. -/
theorem runInputs_frameOf_filter (p : Nat → Bool) {d : Num} (hd : 0 < d) (raw : Nat → Num) (js : List Nat) :
    ∀ s : State, s.refused = none → s.cap ≤ 256 → (∀ j ∈ js, j < s.cap) →
      (∀ j ∈ js, p j = false → (s.V j).phase = .off) →
      ∃ t rs rs', runInputs (frameOf js d raw) s = .next (t, rs) ∧
        runInputs (frameOf (js.filter p) d raw) s = .next (t, rs') ∧ sumDout rs = sumDout rs' := by
  induction js with
  | nil =>
    intro s hr _ _ _
    obtain ⟨t, ht, -⟩ := applyInput_advance hr hd
    exact ⟨t, _, _, runInputs_cons ht rfl, runInputs_cons ht rfl, rfl⟩
  | cons j js ih =>
    intro s hr hn hjs hoff
    have hj := hjs j List.mem_cons_self
    have hjs' := fun k hk => hjs k (List.mem_cons_of_mem j hk)
    have hoff' := fun k hk => hoff k (List.mem_cons_of_mem j hk)
    rw [frameOf_cons]
    cases hp : p j with
    | true =>
      rw [List.filter_cons_of_pos hp, frameOf_cons]
      obtain ⟨t, y, hstep, -, hr', hcap⟩ := applyInput_sample_frame hr hn hj (raw j)
      have hx := (applyInput_input hr (Instr.wf_sample hn hj) (raw j)).symm.trans hstep
      obtain ⟨u, rs, rs', hrun, hrun', hsum⟩ := ih t hr' (hcap ▸ hn) (fun k hk => hcap ▸ hjs' k hk)
        fun k hk hpk => off_of_exec_sample hx (hoff' k hk hpk)
      exact ⟨u, _, _, runInputs_cons hstep hrun, runInputs_cons hstep hrun', by
        rw [sumDout_cons, hsum, ← sumDout_cons]⟩
    | false =>
      rw [List.filter_cons_of_neg (by simp [hp])]
      have hstep := applyInput_sample_off hr hn hj (hoff j List.mem_cons_self hp) (raw j)
      obtain ⟨u, rs, rs', hrun, hrun', hsum⟩ := ih s hr hn hjs' hoff'
      rw [← runInputs_frameOf_ports] at hrun
      exact ⟨u, _, rs', runInputs_cons hstep hrun, hrun', by
        rw [sumDout_cons, hsum]; simp [sumDout]⟩

/-- Settles O47: the sounding frame leaves out SAMPLEs of Off slots only. -/
theorem frameOverAllSlotsEqualsSoundingFrame : Obligations.FrameOverAllSlotsEqualsSoundingFrame := by
  intro s d raw hr hn hd
  rw [frameInputs_eq, soundingFrame_eq]
  exact runInputs_frameOf_filter _ hd raw _ s hr hn (fun j hj => List.mem_range.1 hj) fun j _ hp => by simpa using hp

end Sys2Proof.Machine

/-! ## The voice pool

What NOTE_ON, NOTE_OFF, ADVANCE and READ_VOICE do, and the runs of notes and of time steps (40_voice_pool.md). -/

namespace Sys2Proof

open Sys2Proof.Machine

/-- A word with the opcode of a command without slot decodes to it, once its other bits are zero (30_encoding.md R74,
R75, R80). -/
theorem decode_of_slotless {n : Nat} {w : Word} {i : Instr} (hslot : i.slot? = none)
    (hop : wordOp w = i.opcode.toNat) : decode n w =
      if wordRsvd w ≠ 0 then .error .reservedBits else if wordSlot w ≠ 0 then .error .slotNotZero else .ok i := by
  have hopField : opField w = i.opcode := BitVec.eq_of_toNat_eq ((opField_toNat w).trans hop)
  have hinstr : instrOf (opField w) (slotField w) = some i := by
    rw [hopField]
    cases i with
    | sample | readVoice => cases hslot
    | advance | noteOff | noteOn => rfl
  have hcheck : checkSlot n w i = if wordSlot w ≠ 0 then .error .slotNotZero else .ok i := by
    simp only [checkSlot, hslot, slotField_eq]
  simp only [decode, hinstr, hcheck, ne_eq, rsvdField_eq_zero]

end Sys2Proof

namespace Sys2Proof.Machine

/-! ### NOTE_ON -/

theorem execNoteOn_of_target {s : State} {f : Num} {j : Nat} (hd : s.din = .num f) (hf : 0 < f)
    (hj : noteOnTarget s f = some j) : execNoteOn s = .next ((s.setSlot j (Slot.started f)).emit .nothing) := by
  rw [execNoteOn_eq hd hf, hj]

theorem execNoteOn_of_no_target {s : State} {f : Num} (hd : s.din = .num f) (hf : 0 < f)
    (hnone : noteOnTarget s f = none) : execNoteOn s = .next (s.emit .nothing) := by
  rw [execNoteOn_eq hd hf, hnone]

/-- Settles O20: each clause is a case of NOTE_ON's target, the first bound slot, the first Off slot, or none. -/
theorem noteOnBindsRetriggersOrDrops : Obligations.NoteOnBindsRetriggersOrDrops := by
  refine ⟨fun _ _ hop => decode_of_slotless (i := .noteOn) rfl hop,
    fun s f hd => ⟨execNoteOn_nonpos hd, fun hf => ⟨?_, ?_, ?_⟩⟩⟩
  · exact fun j hj hfreq hfirst =>
      execNoteOn_of_target hd hf (noteOnTarget_eq_some.2 ⟨hj, .inl ⟨hfreq, hfirst⟩⟩)
  · exact fun j hj hunbound hoff hfirst =>
      execNoteOn_of_target hd hf (noteOnTarget_eq_some.2 ⟨hj, .inr ⟨hunbound, hoff, hfirst⟩⟩)
  · exact fun hfull => execNoteOn_of_no_target hd hf (noteOnTarget_eq_none.2 hfull)

/-- Under R33 (a) the slot bound to a frequency above zero is the one NOTE_ON takes. -/
theorem noteOnTarget_of_uniqueFreq {s : State} {f : Num} {j : Nat} (hu : s.uniqueFreq) (hf : 0 < f) (hj : j < s.cap)
    (hfreq : (s.V j).freq = f) : noteOnTarget s f = some j := by
  refine noteOnTarget_eq_some.2 ⟨hj, .inl ⟨hfreq, fun k hk hkf => hk.ne ?_⟩⟩
  exact hu k (hk.trans hj) j hj (hkf ▸ hf) (hkf.trans hfreq.symm)

/-- SAMPLE of a slot whose note has just started is silent when there is an attack ramp (41_envelope.md R143). -/
theorem execSample_started {s : State} {j : Nat} {f x : Num} (hj : j < s.cap) (hx : s.din = .num x)
    (hstarted : s.V j = Slot.started f) (hramp : 0 < s.cfgAttack) :
    ∃ u, execSample j s = .next u ∧ u.out = .dout 0 := by
  have hphase : (s.V j).phase = .attack := by rw [hstarted]; rfl
  have helapsed : (s.V j).elapsed = 0 := by rw [hstarted]; rfl
  have henv := envelope_attack_ramp x hphase ⟨hramp, helapsed ▸ hramp⟩
  rw [helapsed, zero_div, mul_zero] at henv
  exact ⟨_, execSample_of_envelope hj hx henv, rfl⟩

/-- Settles O21: the sounding slot has a frequency above zero, so it is NOTE_ON's target. -/
theorem retriggerRestartsTheSameSlot : Obligations.RetriggerRestartsTheSameSlot := by
  intro s j hinv hj hsounding hd
  obtain ⟨-, -, -, hbound⟩ := hinv.slots j hj
  have hf := hbound hsounding
  have hself := State.V_setSlot_self hj (Slot.started (s.V j).freq)
  refine ⟨_, execNoteOn_of_target hd hf (noteOnTarget_of_uniqueFreq hinv.unique hf hj rfl), hself,
    fun k hk => State.V_setSlot_ne hk _, fun hramp x => ?_⟩
  exact execSample_started (by simpa [State.cap] using hj) rfl hself hramp

/-! ### NOTE_OFF -/

theorem execNoteOff_of_target {s : State} {f : Num} {j : Nat} (hd : s.din = .num f) (hf : 0 < f)
    (hj : noteOffTarget s f = some j) : execNoteOff s = .next ((s.setSlot j (s.V j).released).emit .nothing) := by
  rw [execNoteOff_eq hd hf, hj]

theorem execNoteOff_of_no_target {s : State} {f : Num} (hd : s.din = .num f) (hf : 0 < f)
    (hnone : noteOffTarget s f = none) : execNoteOff s = .next (s.emit .nothing) := by
  rw [execNoteOff_eq hd hf, hnone]

/-- Settles O22: the two clauses are the cases of NOTE_OFF's target. -/
theorem noteOffReleasesTheHeldSlotOrDoesNothing : Obligations.NoteOffReleasesTheHeldSlotOrDoesNothing := by
  refine ⟨fun _ _ hop => decode_of_slotless (i := .noteOff) rfl hop,
    fun s f hd => ⟨execNoteOff_nonpos hd, fun hf => ⟨?_, ?_⟩⟩⟩
  · exact fun j hj hfreq hheld hfirst =>
      execNoteOff_of_target hd hf (noteOffTarget_eq_some.2 ⟨hj, hfreq, hheld, hfirst⟩)
  · exact fun hnone => execNoteOff_of_no_target hd hf (noteOffTarget_eq_none.2 hnone)

/-- Under R33 (a) the release of NOTE_OFF's target leaves no held slot bound to its frequency. -/
theorem noteOffTarget_after_release {s : State} {f : Num} {j : Nat} (hu : s.uniqueFreq) (hf : 0 < f)
    (hj : noteOffTarget s f = some j) : noteOffTarget (s.setSlot j (s.V j).released) f = none := by
  obtain ⟨hjc, hjf, -, -⟩ := noteOffTarget_eq_some.1 hj
  refine noteOffTarget_eq_none.2 fun k hk hkf => ?_
  rw [State.cap_setSlot] at hk
  by_cases hkj : k = j
  · rw [hkj, State.V_setSlot_self hjc]
    simp [Slot.released]
  · rw [State.V_setSlot_ne hkj] at hkf
    exact absurd (hu k hk j hjc (hkf ▸ hf) (hkf.trans hjf.symm)) hkj

/-- Settles O23: after the first NOTE_OFF there is no slot to release. -/
theorem secondNoteOffChangesNothing : Obligations.SecondNoteOffChangesNothing := by
  intro s f hu hd hf
  cases hj : noteOffTarget s f with
  | some j =>
    exact ⟨_, execNoteOff_of_target hd hf hj,
      execNoteOff_of_no_target (s := (s.setSlot j (s.V j).released).emit .nothing) hd hf
        (noteOffTarget_after_release hu hf hj)⟩
  | none =>
    exact ⟨_, execNoteOff_of_no_target hd hf hj, execNoteOff_of_no_target (s := s.emit .nothing) hd hf hj⟩

/-- Settles O24: NOTE_OFF of a frequency above zero completes, and only NOTE_ON writes a frequency. -/
theorem noteOffKeepsEveryFrequency : Obligations.NoteOffKeepsEveryFrequency := by
  intro s f hd hf
  obtain ⟨t, hx⟩ := exec_of_inContract (i := .noteOff) (s := s) ⟨rfl, f, hd, hf⟩
  exact ⟨t, hx, fun k => (fieldsWrittenByTheirCommandsOnly .noteOff s t k hx).1 (by decide)⟩

/-- Settles O40: of the changes a command can make to a slot, a note makes one, and that in its target. -/
theorem notesChangeOnlyTheirTargetSlot : Obligations.NotesChangeOnlyTheirTargetSlot := by
  intro s t f k hd
  constructor <;> intro hx htarget
  · cases exec_slot hx k with
    | started f' _ hd' _ hj _ =>
      cases hd.symm.trans hd'
      exact absurd hj htarget
    | same ht => exact ht
    | released _ hi | advanced _ hi | sampled _ hi => cases hi
  · cases exec_slot hx k with
    | released f' _ hd' _ hj _ =>
      cases hd.symm.trans hd'
      exact absurd hj htarget
    | same ht => exact ht
    | started _ hi | advanced _ hi | sampled _ hi => cases hi

/-! ### ADVANCE -/

theorem execAdvance_nonpos {s : State} {d : Num} (hd : s.din = .num d) (h : d ≤ 0) :
    execAdvance s = .refused (.outOfContract .badDelta) := by
  rw [execAdvance, hd, deltaOperand, positiveOperand_num, if_neg (not_lt.2 h), withOperand_error]

/-- ADVANCE by a time step above zero completes, and of the state it moves the slots alone. -/
theorem execAdvance_completes {s : State} {d : Num} (hd : s.din = .num d) (h : 0 < d) :
    ∃ t, execAdvance s = .next t ∧ t = { s with slots := t.slots, out := .nothing } ∧ t.cap = s.cap ∧
      ∀ k < s.cap, t.V k = (s.V k).advanced d :=
  ⟨_, execAdvance_eq hd h, rfl, List.length_map _, fun _ hk => State.V_map _ hk⟩

/-- An Off slot stays as it is, and a sounding one has its time moved (40_voice_pool.md R112). -/
theorem Slot.advanced_of_phase (d : Num) (v : Slot) : (v.phase = .off → v.advanced d = v) ∧
    (v.phase ≠ .off → v.advanced d = { v with elapsed := v.elapsed + d }) :=
  ⟨Slot.advanced_off, Slot.advanced_sounding⟩

/-- Settles O25: ADVANCE writes the slot file alone, each slot moved as its phase says. -/
theorem advanceMovesEverySoundingSlot : Obligations.AdvanceMovesEverySoundingSlot := by
  refine ⟨fun _ _ hop => decode_of_slotless (i := .advance) rfl hop,
    fun s d hd => ⟨execAdvance_nonpos hd, fun h => ?_⟩⟩
  obtain ⟨t, hx, hframe, hcap, hslots⟩ := execAdvance_completes hd h
  exact ⟨t, hx, hframe, hcap, fun k hk => hslots k hk ▸ Slot.advanced_of_phase d (s.V k)⟩

theorem Slot.advanced_zero (v : Slot) : v.advanced 0 = v := by
  by_cases hoff : v.phase = .off
  · exact Slot.advanced_off hoff
  · rw [Slot.advanced_sounding hoff, add_zero]

/-- Two time steps are one of their sum, since no phase changes between them. -/
theorem Slot.advanced_advanced (d e : Num) (v : Slot) : (v.advanced d).advanced e = v.advanced (d + e) := by
  by_cases hoff : v.phase = .off
  · rw [Slot.advanced_off hoff, Slot.advanced_off hoff, Slot.advanced_off hoff]
  · rw [Slot.advanced_sounding (d := e) (by rwa [Slot.advanced_phase]), Slot.advanced_sounding hoff,
      Slot.advanced_sounding hoff, ← add_assoc]

/-- A run of ADVANCEs moves every slot as one ADVANCE by the sum does. -/
theorem runInputs_advances (ds : List Num) : ∀ s : State, s.refused = none → (∀ d ∈ ds, 0 < d) →
    ∃ t rs, runInputs (ds.map (input .advance)) s = .next (t, rs) ∧ t.cap = s.cap ∧
      ∀ k < s.cap, t.V k = (s.V k).advanced ds.sum := by
  induction ds with
  | nil => exact fun s _ _ => ⟨s, [], rfl, rfl, fun k _ => (Slot.advanced_zero _).symm⟩
  | cons d ds ih =>
    intro s hr hpos
    have hstep := applyInput_input (i := .advance) hr rfl d
    obtain ⟨t, hx, -, hcap, hslots⟩ :=
      execAdvance_completes (s := s.present (encode .advance) (.num d) s.pending) rfl (hpos d List.mem_cons_self)
    obtain ⟨u, rs, hrun, hcap', hslots'⟩ :=
      ih t ((exec_next_refused (i := .advance) hx).trans hr) fun e he => hpos e (List.mem_cons_of_mem d he)
    refine ⟨u, _, runInputs_cons (hstep.trans hx) hrun, hcap'.trans hcap, fun k hk => ?_⟩
    rw [hslots' k (hcap ▸ hk), hslots k hk, Slot.advanced_advanced, List.sum_cons, State.V_present]

/-- Settles O26: the run of ADVANCEs is one move by the exact sum. -/
theorem advancesAddUpExactly : Obligations.AdvancesAddUpExactly := by
  intro s ds hr hpos
  obtain ⟨t, rs, hrun, hcap, hslots⟩ := runInputs_advances ds s hr hpos
  exact ⟨t, rs, hrun, hcap, fun k hk => hslots k hk ▸ Slot.advanced_of_phase ds.sum (s.V k)⟩

/-! ### READ_VOICE -/

/-- Settles O27: the result is the code of the slot's phase with its three Nums, and READ_VOICE does not read the result
ports. -/
theorem readVoiceReportsTheSlot : Obligations.ReadVoiceReportsTheSlot := by
  intro s j hj
  have hcode : ∀ {p : Phase}, (s.V j).phase = p → (s.V j).phase.code = p.code := congrArg Phase.code
  exact ⟨_, _, execReadVoice_eq hj, rfl, hcode, hcode, hcode, hcode, hcode,
    (exec_emit (.readVoice j) s _).trans (execReadVoice_eq hj)⟩

/-! ### Runs of notes on an idle pool -/

theorem Slot.started_sounding (f : Num) : (Slot.started f).phase ≠ .off := by
  simp [Slot.started]

/-- Equal slot files have one capacity. -/
theorem State.cap_congr {s t : State} (h : t.slots = s.slots) : t.cap = s.cap := congrArg List.length h

/-- A run that completes has completed its first input and the run of the others. -/
theorem runInputs_cons_next {c : HostInput} {cs : List HostInput} {s u : State} {rs : List Result}
    (h : runInputs (c :: cs) s = .next (u, rs)) :
    ∃ t rs', applyInput c s = .next t ∧ runInputs cs t = .next (u, rs') ∧ rs = t.out :: rs' := by
  rw [runInputs] at h
  split at h
  · cases h
  · cases h
  · rename_i t hc
    split at h
    · rename_i rs' hrest
      cases h
      exact ⟨t, rs', hc, hrest, rfl⟩
    · cases h
    · cases h

/-- A run goes on with one more input, when that completes in its last state. -/
theorem runInputs_snoc {cs : List HostInput} {c : HostInput} {s t u : State} {rs : List Result}
    (hrun : runInputs cs s = .next (t, rs)) (h : applyInput c t = .next u) :
    runInputs (cs ++ [c]) s = .next (u, rs ++ [u.out]) := by
  induction cs generalizing s rs with
  | nil =>
    cases hrun
    exact runInputs_cons h rfl
  | cons a as ih =>
    obtain ⟨t', rs', ha, hrest, rfl⟩ := runInputs_cons_next hrun
    exact runInputs_cons ha (ih hrest)

/-- One more note after a run of notes. -/
theorem runInputs_noteOns_snoc {fs : List Num} {f : Num} {s t u : State} {rs : List Result}
    (hrun : runInputs (fs.map (input .noteOn)) s = .next (t, rs)) (h : applyInput (input .noteOn f) t = .next u) :
    runInputs ((fs ++ [f]).map (input .noteOn)) s = .next (u, rs ++ [u.out]) := by
  rw [List.map_append]
  exact runInputs_snoc hrun h

/-- A note that finds a slot starts there. -/
theorem applyInput_noteOn_of_target {s : State} {f : Num} {j : Nat} (hr : s.refused = none) (hf : 0 < f)
    (hj : noteOnTarget s f = some j) : ∃ t, applyInput (input .noteOn f) s = .next t ∧ t.refused = none ∧
      t.slots = (s.setSlot j (Slot.started f)).slots :=
  ⟨_, (applyInput_input hr rfl f).trans
    (execNoteOn_of_target (s := s.present (encode .noteOn) (.num f) s.pending) rfl hf hj), hr, rfl⟩

/-- After any notes, one on a frequency no slot is bound to is dropped by a full pool (40_voice_pool.md R105). -/
theorem runInputs_noteOns_dropped {fs : List Num} {g : Num} {s t : State} {rs : List Result}
    (hrun : runInputs (fs.map (input .noteOn)) s = .next (t, rs)) (hr : t.refused = none) (hg : 0 < g)
    (hfull : ∀ k < t.cap, (t.V k).freq ≠ g ∧ (t.V k).phase ≠ .off) :
    ∃ u rs', runInputs ((fs ++ [g]).map (input .noteOn)) s = .next (u, rs') ∧ u.slots = t.slots :=
  ⟨_, _, runInputs_noteOns_snoc hrun ((applyInput_input hr rfl g).trans
    (execNoteOn_of_no_target (s := t.present (encode .noteOn) (.num g) t.pending) rfl hg
      (noteOnTarget_eq_none.2 hfull))), rfl⟩

/-- Notes on frequencies no slot is bound to take the slots of an idle pool in order (40_voice_pool.md R117). -/
theorem runInputs_noteOns_inOrder {s : State} (hr : s.refused = none) (fs : List Num) (hlen : fs.length ≤ s.cap)
    (hidle : ∀ k < s.cap, (s.V k).phase = .off) (hnew : ∀ k < s.cap, (s.V k).freq ∉ fs) (hpos : ∀ f ∈ fs, 0 < f)
    (hnodup : fs.Nodup) : ∃ t rs, runInputs (fs.map (input .noteOn)) s = .next (t, rs) ∧ t.refused = none ∧
      t.cap = s.cap ∧ (∀ k (hk : k < fs.length), t.V k = Slot.started fs[k]) ∧
      ∀ k, fs.length ≤ k → t.V k = s.V k := by
  induction fs using List.reverseRecOn with
  | nil => exact ⟨s, [], rfl, hr, rfl, fun _ hk => absurd hk (Nat.not_lt_zero _), fun _ _ => rfl⟩
  | append_singleton fs f ih =>
    obtain ⟨hf, hnodup⟩ := List.nodup_cons.1 (List.nodup_append_comm.1 hnodup)
    simp only [List.mem_append, List.mem_singleton, not_or] at hnew hpos
    rw [List.length_append, List.length_singleton] at hlen
    obtain ⟨t, rs, hrun, hrt, hcap, hfilled, hrest⟩ :=
      ih (by omega) (fun k hk => (hnew k hk).1) (fun g hg => hpos g (.inl hg)) hnodup
    have hunbound : ∀ k < t.cap, (t.V k).freq ≠ f := by
      intro k hk
      by_cases hkl : k < fs.length
      · rw [hfilled k hkl]
        exact fun h => hf (h ▸ List.getElem_mem hkl)
      · rw [hrest k (not_lt.1 hkl)]
        exact (hnew k (hcap ▸ hk)).2
    have htarget : noteOnTarget t f = some fs.length := by
      refine noteOnTarget_eq_some.2 ⟨by omega, .inr ⟨hunbound, ?_, fun k hk => ?_⟩⟩
      · rw [hrest _ le_rfl]
        exact hidle _ hlen
      · rw [hfilled k hk]
        exact Slot.started_sounding _
    obtain ⟨u, hstep, hru, hslots⟩ := applyInput_noteOn_of_target hrt (hpos f (.inr rfl)) htarget
    refine ⟨u, _, runInputs_noteOns_snoc hrun hstep, hru, ?_, fun k hk => ?_, fun k hk => ?_⟩
    · exact (State.cap_congr hslots).trans ((State.cap_setSlot ..).trans hcap)
    · rw [State.V_congr hslots]
      have hkl : k < fs.length + 1 := by simpa using hk
      obtain hkl | rfl := Nat.lt_succ_iff_lt_or_eq.1 hkl
      · rw [State.V_setSlot_ne hkl.ne, hfilled k hkl, List.getElem_append_left hkl]
      · rw [State.V_setSlot_self (by omega), List.getElem_concat_length rfl]
    · rw [List.length_append, List.length_singleton] at hk
      rw [State.V_congr hslots, State.V_setSlot_ne (by omega), hrest k (by omega)]

/-- Settles O45: the first `N` notes fill the slots in order, and the last finds neither its frequency nor an Off
slot. -/
theorem poolFillsInOrderAndDropsTheLast : Obligations.PoolFillsInOrderAndDropsTheLast := by
  intro s fs g hr hlen hidle hpos hnodup
  obtain ⟨hg, hnodup⟩ := List.nodup_cons.1 hnodup
  obtain ⟨t, rs, hrun, hrt, hcap, hfilled, -⟩ := runInputs_noteOns_inOrder hr fs hlen.le (fun k hk => (hidle k hk).1)
    (fun k hk h => (hidle k hk).2 (List.mem_cons_of_mem g h)) (fun f hf => hpos f (List.mem_cons_of_mem g hf)) hnodup
  obtain ⟨u, rs', hrun', hslots⟩ := runInputs_noteOns_dropped hrun hrt (hpos g List.mem_cons_self) fun k hk => by
    have hk : k < fs.length := by omega
    rw [hfilled k hk]
    exact ⟨fun h => hg (h ▸ List.getElem_mem hk), Slot.started_sounding _⟩
  refine ⟨u, rs', hrun', (State.cap_congr hslots).trans hcap, fun k hk => ?_⟩
  have hk : k < fs.length := hlen ▸ hk
  rw [State.V_congr hslots, hfilled k hk, List.getD_eq_getElem _ _ hk]
  rfl

/-! ### The sounding slots -/

open scoped List

/-- The slots that are not Off, in slot order. -/
def State.soundingSlots (s : State) : List Slot := s.slots.filter Slot.sounding

theorem State.mem_slots {s : State} {v : Slot} : v ∈ s.slots ↔ ∃ k < s.cap, s.V k = v := by
  simp [← s.map_V_range]

theorem State.mem_soundingSlots {s : State} {v : Slot} :
    v ∈ s.soundingSlots ↔ (∃ k < s.cap, s.V k = v) ∧ v.phase ≠ .off := by
  simp [State.soundingSlots, State.mem_slots, Slot.sounding]

/-- As many slots sound as there are exactly when none is Off. -/
theorem State.length_soundingSlots_eq_cap {s : State} :
    s.soundingSlots.length = s.cap ↔ ∀ k < s.cap, (s.V k).phase ≠ .off := by
  simp [State.soundingSlots, State.cap, List.length_filter_eq_length_iff, State.mem_slots, Slot.sounding]

theorem State.soundingSlots_idle {s : State} (hidle : ∀ k < s.cap, (s.V k).phase = .off) : s.soundingSlots = [] := by
  refine List.eq_nil_iff_forall_not_mem.2 fun v hv => ?_
  obtain ⟨⟨k, hk, rfl⟩, hsounding⟩ := State.mem_soundingSlots.1 hv
  exact hsounding (hidle k hk)

/-- A note that starts in an Off slot adds one slot to those that sound. -/
theorem State.soundingSlots_start {s : State} {j : Nat} (hj : j < s.cap) (hoff : (s.V j).phase = .off) (f : Num) :
    (s.setSlot j (Slot.started f)).soundingSlots ~ Slot.started f :: s.soundingSlots := by
  have hlen : j < s.slots.length := hj
  have hold : s.slots[j] = s.V j := by simp [State.V, hlen]
  have hset := (List.set_perm_cons_eraseIdx hlen (Slot.started f)).filter Slot.sounding
  have hrest := (List.getElem_cons_eraseIdx_perm hlen).filter Slot.sounding
  rw [List.filter_cons_of_pos rfl] at hset
  rw [hold, List.filter_cons_of_neg (by simp [Slot.sounding, hoff])] at hrest
  exact hset.trans (hrest.cons _)

/-- A note on a frequency no sounding slot is bound to takes an Off slot, while there is one, whatever frequencies the
Off slots hold (40_voice_pool.md R104). -/
theorem noteOnTarget_of_room {s : State} {f : Num} (hnew : ∀ v ∈ s.soundingSlots, v.freq ≠ f)
    (hroom : s.soundingSlots.length < s.cap) : ∃ j < s.cap, noteOnTarget s f = some j ∧ (s.V j).phase = .off := by
  cases htarget : noteOnTarget s f with
  | none =>
    have hfull := noteOnTarget_eq_none.1 htarget
    exact absurd (State.length_soundingSlots_eq_cap.2 fun k hk => (hfull k hk).2) hroom.ne
  | some j =>
    obtain ⟨hj, ⟨hfreq, -⟩ | ⟨-, hoff, -⟩⟩ := noteOnTarget_eq_some.1 htarget
    · refine ⟨j, hj, rfl, by_contra fun hsounding => ?_⟩
      exact hnew _ (State.mem_soundingSlots.2 ⟨⟨j, hj, rfl⟩, hsounding⟩) hfreq
    · exact ⟨j, hj, rfl, hoff⟩

/-- Notes on distinct frequencies all find a slot of an idle pool, while there are slots enough (40_voice_pool.md
R117). -/
theorem runInputs_noteOns_sounding {s : State} (hr : s.refused = none) (fs : List Num) (hlen : fs.length ≤ s.cap)
    (hidle : ∀ k < s.cap, (s.V k).phase = .off) (hpos : ∀ f ∈ fs, 0 < f) (hnodup : fs.Nodup) :
    ∃ t rs, runInputs (fs.map (input .noteOn)) s = .next (t, rs) ∧ t.refused = none ∧ t.cap = s.cap ∧
      t.soundingSlots ~ fs.map Slot.started := by
  induction fs using List.reverseRecOn with
  | nil => exact ⟨s, [], rfl, hr, rfl, State.soundingSlots_idle hidle ▸ List.Perm.nil⟩
  | append_singleton fs f ih =>
    obtain ⟨hf, hnodup⟩ := List.nodup_cons.1 (List.nodup_append_comm.1 hnodup)
    simp only [List.mem_append, List.mem_singleton] at hpos
    rw [List.length_append, List.length_singleton] at hlen
    obtain ⟨t, rs, hrun, hrt, hcap, hperm⟩ := ih (by omega) (fun g hg => hpos g (.inl hg)) hnodup
    have hnew : ∀ v ∈ t.soundingSlots, v.freq ≠ f := by
      intro v hv hvf
      obtain ⟨g, hg, rfl⟩ := List.mem_map.1 (hperm.mem_iff.1 hv)
      exact hf (hvf ▸ hg)
    have hroom : t.soundingSlots.length < t.cap := by
      rw [hperm.length_eq, List.length_map]
      omega
    obtain ⟨j, hj, htarget, hoff⟩ := noteOnTarget_of_room hnew hroom
    obtain ⟨u, hstep, hru, hslots⟩ := applyInput_noteOn_of_target hrt (hpos f (.inr rfl)) htarget
    refine ⟨u, _, runInputs_noteOns_snoc hrun hstep, hru, ?_, ?_⟩
    · exact (State.cap_congr hslots).trans ((State.cap_setSlot ..).trans hcap)
    · calc u.soundingSlots = (t.setSlot j (Slot.started f)).soundingSlots := congrArg (List.filter _) hslots
        _ ~ Slot.started f :: t.soundingSlots := State.soundingSlots_start hj hoff f
        _ ~ Slot.started f :: fs.map Slot.started := hperm.cons _
        _ ~ (fs ++ [f]).map Slot.started := ((List.perm_append_singleton f fs).map _).symm

/-- Settles O46: after the first `N` notes the slots, all sounding, are one of each note, in some order; and the last
finds neither its frequency nor an Off slot. -/
theorem poolFillsWhateverStaleFrequencies : Obligations.PoolFillsWhateverStaleFrequencies := by
  intro s fs g _ hr hlen hidle hpos hnodup
  obtain ⟨hg, hnodup⟩ := List.nodup_cons.1 hnodup
  obtain ⟨t, rs, hrun, hrt, hcap, hperm⟩ := runInputs_noteOns_sounding hr fs hlen.le hidle
    (fun f hf => hpos f (List.mem_cons_of_mem g hf)) hnodup
  have hsounding := State.length_soundingSlots_eq_cap.1
    (by rw [hperm.length_eq, List.length_map, hlen, hcap])
  have hnotLast : ∀ k < t.cap, (t.V k).freq ≠ g := by
    intro k hk hkg
    have hmem := State.mem_soundingSlots.2 ⟨⟨k, hk, rfl⟩, hsounding k hk⟩
    obtain ⟨f, hf, hv⟩ := List.mem_map.1 (hperm.mem_iff.1 hmem)
    exact hg (hkg ▸ hv ▸ hf)
  obtain ⟨u, rs', hrun', hslots⟩ := runInputs_noteOns_dropped hrun hrt (hpos g List.mem_cons_self)
    fun k hk => ⟨hnotLast k hk, hsounding k hk⟩
  refine ⟨u, rs', hrun', (State.cap_congr hslots).trans hcap, ?_⟩
  simp only [State.V_congr hslots, ← hcap]
  exact ⟨fun f hf => (State.mem_soundingSlots.1 (hperm.mem_iff.2 (List.mem_map_of_mem hf))).1, hnotLast⟩

end Sys2Proof.Machine

/-! ## The envelope

What SAMPLE does in each phase, the gain, the phases that only a note or the end of a fade leaves, and a note released
in its attack (41_envelope.md). -/

namespace Sys2Proof.Machine

/-! ### SAMPLE, phase by phase -/

/-- SAMPLE that finds the slot in the phase it leaves it in changes nothing but the result. -/
theorem execSample_of_phase_kept {s : State} {j : Nat} {x y : Num} {ph : Phase} (hj : j < s.cap) (hx : s.din = .num x)
    (hp : (s.V j).phase = ph) (he : envelope s (s.V j) x = (ph, y)) :
    execSample j s = .next { s with out := .dout y } := by
  rw [execSample_of_envelope hj hx he, State.setSlot_phase_self hp]
  rfl

/-- Settles O28: the two branches of Attack; and a time that is not negative is below `CFG_ATTACK` only when that is
above zero. -/
theorem sampleInAttackRampsThenEntersDecay : Obligations.SampleInAttackRampsThenEntersDecay :=
  fun _ _ x hj hx hp =>
    ⟨fun hramp => execSample_of_envelope hj hx (envelope_attack_ramp x hp hramp),
      fun hc hover => execSample_of_envelope hj hx (envelope_attack_over x hp hc hover),
      fun helapsed => and_iff_right_of_imp helapsed.trans_lt⟩

/-- Settles O29, by the branch of Decay without the cascade. -/
theorem sampleInDecayPassesThroughOnce : Obligations.SampleInDecayPassesThroughOnce :=
  fun _ _ x hj hx hp hc => execSample_of_envelope hj hx (envelope_decay x hp hc)

/-- Settles O31: the two branches of Release; the fade's factor at progress 0 is 1; and a progress that is not negative
is below `CFG_RELEASE` only when that is above zero. -/
theorem sampleInReleaseFadesToOff : Obligations.SampleInReleaseFadesToOff := by
  rintro s j x p hj hx hp rfl
  have hfade := fun h => execSample_of_phase_kept hj hx hp (envelope_release_fade x hp h)
  refine ⟨hfade, fun hover => execSample_of_envelope hj hx (envelope_release_over x hp hover), fun hzero hpos => ?_,
    fun hprogress => and_iff_right_of_imp hprogress.trans_lt⟩
  have hstart := hfade ⟨hpos, hzero ▸ hpos⟩
  rwa [hzero, zero_div, sub_zero, mul_one] at hstart

/-- Settles O32: Off is the phase SAMPLE of an Off slot leaves, with the output 0. -/
theorem sampleOfAnOffSlotIsSilent : Obligations.SampleOfAnOffSlotIsSilent :=
  fun _ _ x hj hx hp => execSample_of_phase_kept hj hx hp (envelope_off x hp)

/-- Settles O33, by the cascade branches of Attack and Decay. -/
theorem cascadeGoesStraightToSustain : Obligations.CascadeGoesStraightToSustain := by
  rintro s j x hj hx hc (⟨hp, hover⟩ | hp)
  · exact execSample_of_envelope hj hx (envelope_attack_cascade x hp hc hover)
  · exact execSample_of_envelope hj hx (envelope_decay_cascade x hp hc)

/-- Settles O34: the phase and the output are those of the envelope. -/
theorem sampleWritesOnlyThePhase : Obligations.SampleWritesOnlyThePhase :=
  fun _ _ _ hj hx => ⟨_, _, execSample_eq hj hx⟩

/-- Settles O35: the phase SAMPLE leaves is the one it found, or that of a listed transition. -/
theorem sampleMakesOnlyTheListedTransitions : Obligations.SampleMakesOnlyTheListedTransitions := by
  intro s t j hx hne
  obtain ⟨x, -, hj, rfl⟩ := execSample_next hx
  rw [State.V_emit, State.V_setSlot_self hj] at hne ⊢
  exact (envelope_phase_cases s (s.V j) x).resolve_left hne

/-! ### The gain -/

/-- The part of a time `r` that has passed at `p` (41_envelope.md R143, R146). -/
theorem div_mem_Icc_of_lt {p r : Num} (hp : 0 ≤ p) (hr : 0 < r) (h : p < r) : p / r ∈ Set.Icc (0 : Num) 1 :=
  ⟨div_nonneg hp hr.le, (div_le_one₀ hr).2 h.le⟩

/-- With the configuration in its ranges and the slot's times in theirs, the gain lies between 0 and 1 (41_envelope.md
R151). -/
theorem gain_mem_Icc {s : State} {v : Slot} (hcfg : s.cfgGood) (hv : v.good) : gain s v ∈ Set.Icc (0 : Num) 1 := by
  obtain ⟨-, -, -, hsustain⟩ := hcfg
  have hsustain : s.cfgSustain ∈ Set.Icc (0 : Num) 1 := hsustain
  have hone : (1 : Num) ∈ Set.Icc (0 : Num) 1 := Set.right_mem_Icc.2 zero_le_one
  have hzero : (0 : Num) ∈ Set.Icc (0 : Num) 1 := Set.left_mem_Icc.2 zero_le_one
  obtain ⟨helapsed, hrel, -, -⟩ := hv
  unfold gain
  cases hp : v.phase with
  | attack =>
    dsimp only
    split_ifs with hramp
    · exact div_mem_Icc_of_lt helapsed hramp.1 hramp.2
    · exact hsustain
    · exact hone
  | decay =>
    dsimp only
    split_ifs
    · exact hsustain
    · exact hone
  | sustain => exact hsustain
  | release =>
    dsimp only
    split_ifs with hfade
    · have hprogress := div_mem_Icc_of_lt (sub_nonneg.2 (hrel hp).2) hfade.1 hfade.2
      have hleft := Set.Icc.one_sub_mem hprogress
      exact ⟨mul_nonneg hsustain.1 hleft.1, mul_le_one₀ hsustain.2 hleft.1 hleft.2⟩
    · exact hzero
  | off => exact hzero

/-- Settles O36: the shaped sample is the raw one times the gain, which the invariant bounds. -/
theorem outputIsRawTimesABoundedGain : Obligations.OutputIsRawTimesABoundedGain := by
  intro s j hj
  refine ⟨fun x hx => ⟨_, execSample_eq hj hx, congrArg Result.dout (envelope_sample s (s.V j) x)⟩, fun hinv => ?_⟩
  obtain ⟨hlow, hhigh⟩ := gain_mem_Icc hinv.cfg (hinv.slots j hj)
  refine ⟨hlow, hhigh, fun x => ?_⟩
  rw [abs_mul, abs_of_nonneg hlow]
  exact mul_le_of_le_one_right (abs_nonneg x) hhigh

/-! ### No Decay under the cascade -/

/-- Under the cascade SAMPLE leaves a slot in Decay only if it found it there. -/
theorem phase_eq_decay_of_envelope {s : State} {v : Slot} {x : Num} (hc : s.cascade = true)
    (h : (envelope s v x).1 = .decay) : v.phase = .decay := by
  obtain hs | ⟨-, -, hc'⟩ | ⟨-, hs, -⟩ | ⟨-, hs⟩ | ⟨-, hs⟩ := envelope_phase_cases s v x
  · exact hs.symm.trans h
  · exact absurd (hc'.symm.trans hc) (by decide)
  all_goals exact absurd (hs.symm.trans h) (by decide)

/-- Under the cascade no command takes a slot into Decay. -/
theorem phase_eq_decay_of_exec {i : Instr} {s t : State} {k : Nat} (hx : exec i s = .next t) (hc : s.cascade = true)
    (h : (t.V k).phase = .decay) : (s.V k).phase = .decay := by
  cases exec_slot hx k with
  | started f _ _ _ _ ht | released f _ _ _ _ ht => rw [ht] at h; cases h
  | advanced d _ _ _ ht => rwa [ht, Slot.advanced_phase] at h
  | sampled x _ _ _ ht => rw [ht] at h; exact phase_eq_decay_of_envelope hc h
  | same ht => rwa [ht] at h

theorem exec_next_noDecayUnderCascade {i : Instr} {s t : State} (hx : exec i s = .next t)
    (h : s.noDecayUnderCascade) : t.noDecayUnderCascade := by
  intro hc k hk hdecay
  rw [exec_next_cascade hx] at hc
  rw [exec_next_cap hx] at hk
  exact h hc k hk (phase_eq_decay_of_exec hx hc hdecay)

/-- Settles O15: waiting keeps the slots, no command enters Decay under the cascade, and after a reset all slots are
Off. -/
theorem stepKeepsNoDecayUnderCascade : Obligations.StepKeepsNoDecayUnderCascade := by
  intro s t h hstep
  obtain ⟨-, ⟨-, rfl⟩ | ⟨w, d, rest, i, -, -, hx⟩ | ⟨c, rest, -, -, rfl⟩⟩ := step_next hstep
  · exact h
  · exact exec_next_noDecayUnderCascade hx h
  · exact resetWith_noDecay (s.params c)

/-! ### What ends Sustain and Release -/

/-- A slot NOTE_ON takes while it is not Off is bound to its frequency. -/
theorem freq_of_noteOnTarget {s : State} {f : Num} {k : Nat} (h : noteOnTarget s f = some k)
    (hp : (s.V k).phase ≠ .off) : (s.V k).freq = f := by
  obtain ⟨-, ⟨hfreq, -⟩ | ⟨-, hoff, -⟩⟩ := noteOnTarget_eq_some.1 h
  · exact hfreq
  · exact absurd hoff hp

/-- The slot NOTE_OFF takes is bound to its frequency. -/
theorem freq_of_noteOffTarget {s : State} {f : Num} {k : Nat} (h : noteOffTarget s f = some k) : (s.V k).freq = f := by
  obtain ⟨-, hfreq, -, -⟩ := noteOffTarget_eq_some.1 h
  exact hfreq

/-- Settles O30: Sustain is the phase SAMPLE of a slot in Sustain leaves; and of the changes a command can make to a
slot only the notes' end Sustain, each in the slot bound to its frequency. -/
theorem sustainLastsUntilANoteReachesIt : Obligations.SustainLastsUntilANoteReachesIt := by
  refine ⟨fun s j x hj hx hp => execSample_of_phase_kept hj hx hp (envelope_sustain x hp), fun i s t k hx hp hne => ?_⟩
  cases exec_slot hx k with
  | started f hi hd _ hj _ => exact ⟨.inr hi, by rw [hd, freq_of_noteOnTarget hj (by simp [hp])]⟩
  | released f hi hd _ hj _ => exact ⟨.inl hi, by rw [hd, freq_of_noteOffTarget hj]⟩
  | advanced d _ _ _ ht => exact absurd (by rw [ht, Slot.advanced_phase, hp]) hne
  | sampled x _ _ _ ht => exact absurd (by rw [ht, envelope_sustain x hp]) hne
  | same ht => exact absurd (by rw [ht, hp]) hne

/-- SAMPLE that takes a good slot from Release to Off has found its fade over. -/
theorem release_over_of_envelope {s : State} {v : Slot} {x : Num} (hv : v.good) (hp : v.phase = .release)
    (h : (envelope s v x).1 = .off) : s.cfgRelease ≤ v.elapsed - v.rel := by
  by_contra hover
  obtain ⟨-, hrel, -, -⟩ := hv
  have hprogress : 0 ≤ v.elapsed - v.rel := sub_nonneg.2 (hrel hp).2
  have hlt := not_le.1 hover
  rw [envelope_release_fade x hp ⟨hprogress.trans_lt hlt, hlt⟩] at h
  cases h

/-- Settles O43: a note leaves a slot in Attack or Release and ADVANCE keeps its phase, so SAMPLE alone frees a
releasing slot, its fade over; and NOTE_ON takes a slot that is not Off by its own frequency only. -/
theorem releasingSlotFreedOnlyByItsSample : Obligations.ReleasingSlotFreedOnlyByItsSample := by
  intro i s t k hinv hx hk hp
  cases exec_slot hx k with
  | started f _ hd _ hj ht =>
    exact ⟨by simp [ht, Slot.started], fun _ _ => by rw [hd, freq_of_noteOnTarget hj (by simp [hp])]⟩
  | released f hi _ _ _ ht => exact ⟨by simp [ht, Slot.released], by simp [hi]⟩
  | advanced d hi _ _ ht => exact ⟨by simp [ht, hp], by simp [hi]⟩
  | sampled x hi _ _ ht =>
    exact ⟨fun h => ⟨hi, release_over_of_envelope (hinv.slots k hk) hp (by rw [← h, ht])⟩, by simp [hi]⟩
  | same ht => exact ⟨by simp [ht, hp], fun _ hne => absurd ht hne⟩

/-! ### A note released in its attack -/

/-- Under R33 (a) the held slot bound to a frequency above zero is the one NOTE_OFF takes. -/
theorem noteOffTarget_of_uniqueFreq {s : State} {f : Num} {j : Nat} (hu : s.uniqueFreq) (hf : 0 < f) (hj : j < s.cap)
    (hfreq : (s.V j).freq = f) (hheld : (s.V j).phase ∈ [Phase.attack, .decay, .sustain]) :
    noteOffTarget s f = some j := by
  refine noteOffTarget_eq_some.2 ⟨hj, hfreq, hheld, fun k hk hkf => absurd ?_ hk.ne⟩
  exact hu k (hk.trans hj) j hj (hkf ▸ hf) (hkf.trans hfreq.symm)

/-- The block `t` takes commands, with `sustain` in `CFG_SUSTAIN` and `release` in `CFG_RELEASE`, and its slot `j` has
been in Release for the time `p` (41_envelope.md R146). -/
structure State.Fading (t : State) (j : Nat) (p sustain release : Num) : Prop where
  unmarked : t.refused = none
  capacity : t.cap ≤ 256
  slot     : j < t.cap
  phase    : (t.V j).phase = .release
  progress : (t.V j).elapsed - (t.V j).rel = p
  level    : t.cfgSustain = sustain
  duration : t.cfgRelease = release

/-- A run starts with its first input and that input's result. -/
theorem runInputs_cons_of_out {c : HostInput} {cs : List HostInput} {s t u : State} {r : Result} {rs : List Result}
    (h : applyInput c s = .next t) (hout : t.out = r) (hr : runInputs cs t = .next (u, rs)) :
    runInputs (c :: cs) s = .next (u, r :: rs) :=
  hout ▸ runInputs_cons h hr

/-- NOTE_OFF of its target starts the fade (40_voice_pool.md R108). -/
theorem fading_of_noteOff {s : State} {f : Num} {j : Nat} (hr : s.refused = none) (hn : s.cap ≤ 256) (hf : 0 < f)
    (hj : noteOffTarget s f = some j) : ∃ t, applyInput (input .noteOff f) s = .next t ∧ t.out = .nothing ∧
      t.Fading j 0 s.cfgSustain s.cfgRelease := by
  obtain ⟨hjc, -, -, -⟩ := noteOffTarget_eq_some.1 hj
  have hx := execNoteOff_of_target (s := s.present (encode .noteOff) (.num f) s.pending) rfl hf hj
  have hcap := exec_next_cap (i := .noteOff) hx
  have hself := State.V_setSlot_self (s := s.present (encode .noteOff) (.num f) s.pending) hjc (s.V j).released
  exact ⟨_, (applyInput_input hr rfl f).trans hx, rfl,
    { unmarked := hr
      capacity := hcap.trans_le hn
      slot     := hjc.trans_eq hcap.symm
      phase    := congrArg Slot.phase hself
      progress := (congrArg (fun v => v.elapsed - v.rel) hself).trans (sub_self _)
      level    := rfl
      duration := rfl }⟩

/-- ADVANCE moves the fade on by its time step (40_voice_pool.md R112). -/
theorem State.Fading.advance {t : State} {j : Nat} {p d sustain release : Num} (h : t.Fading j p sustain release)
    (hd : 0 < d) : ∃ u, applyInput (input .advance d) t = .next u ∧ u.out = .nothing ∧
      u.Fading j (p + d) sustain release := by
  obtain ⟨u, hx, hframe, hcap, hslots⟩ :=
    execAdvance_completes (s := t.present (encode .advance) (.num d) t.pending) rfl hd
  obtain ⟨-, -, hsustain, hrelease⟩ := exec_next_cfg (i := .advance) hx
  have hself : u.V j = { t.V j with elapsed := (t.V j).elapsed + d } :=
    (hslots j h.slot).trans (Slot.advanced_sounding (by simp [h.phase]))
  exact ⟨u, (applyInput_input h.unmarked rfl d).trans hx, by rw [hframe],
    { unmarked := (exec_next_refused (i := .advance) hx).trans h.unmarked
      capacity := hcap.trans_le h.capacity
      slot     := h.slot.trans_eq hcap.symm
      phase    := by rw [hself, h.phase]
      progress := by rw [hself, ← h.progress, add_sub_right_comm]
      level    := hsustain.trans h.level
      duration := hrelease.trans h.duration }⟩

/-- SAMPLE during the fade (41_envelope.md R146). -/
theorem State.Fading.sample {t : State} {j : Nat} {p sustain release : Num} (h : t.Fading j p sustain release)
    (hpos : 0 < release) (hp : p < release) (x : Num) : ∃ u, runInputs [input (.sample j) x] t =
      .next (u, [.dout (x * sustain * (1 - p / release))]) := by
  obtain ⟨hr, hn, hj, hphase, rfl, rfl, rfl⟩ := h
  have hstep := applyInput_sample hr hn hj x
  rw [envelope_release_fade x hphase ⟨hpos, hp⟩] at hstep
  exact ⟨_, runInputs_cons hstep rfl⟩

/-- Settles O51: NOTE_OFF takes the slot in Attack, whose fade begins at progress 0 whatever the ramp had reached;
ADVANCE then moves it to `d`. -/
theorem releaseDuringAttackJumpsToTheFade : Obligations.ReleaseDuringAttackJumpsToTheFade := by
  intro s j d x hinv hr hj hattack hd hdr
  have hpos := hd.trans hdr
  obtain ⟨-, -, -, hbound⟩ := hinv.slots j hj
  have hf : 0 < (s.V j).freq := hbound (by simp [hattack])
  have htarget := noteOffTarget_of_uniqueFreq hinv.unique hf hj rfl (by simp [hattack])
  obtain ⟨t, hoff, hout, hfading⟩ := fading_of_noteOff hr hinv.cap.2 hf htarget
  constructor
  · obtain ⟨u, hrun⟩ := hfading.sample hpos hpos x
    rw [zero_div, sub_zero, mul_one] at hrun
    exact ⟨u, runInputs_cons_of_out hoff hout hrun⟩
  · obtain ⟨t', hadvance, hout', hfading'⟩ := hfading.advance hd
    rw [zero_add] at hfading'
    obtain ⟨u, hrun⟩ := hfading'.sample hpos hdr x
    exact ⟨u, runInputs_cons_of_out hoff hout (runInputs_cons_of_out hadvance hout' hrun)⟩

end Sys2Proof.Machine

/-! ## Exceptions

When a command completes, the reason for which it is refused, and what reset refuses (60_exceptions.md). -/

namespace Sys2Proof.Machine

/-! ### Completion and the contract -/

/-- A command that completes had its slot in the file and its operand in the contract (60_exceptions.md R182). -/
theorem inContract_of_exec_next {i : Instr} {s t : State} (hx : exec i s = .next t) : inContract i s := by
  cases i with
  | advance =>
    obtain ⟨d, hd, hpos, -⟩ := execAdvance_next hx
    exact ⟨rfl, d, hd, hpos⟩
  | sample j =>
    obtain ⟨x, hd, hj, -⟩ := execSample_next hx
    exact ⟨decide_eq_true hj, x, hd⟩
  | readVoice j => exact ⟨decide_eq_true (execReadVoice_next hx).1, trivial⟩
  | noteOff =>
    obtain ⟨f, hd, hpos, -⟩ := execNoteOff_next hx
    exact ⟨rfl, f, hd, hpos⟩
  | noteOn =>
    obtain ⟨f, hd, hpos, -⟩ := execNoteOn_next hx
    exact ⟨rfl, f, hd, hpos⟩

/-- Settles O17: every operand in the contract passes the command's checks, and no other does. -/
theorem commandCompletesExactlyInContract : Obligations.CommandCompletesExactlyInContract :=
  fun _ _ => ⟨fun ⟨_, hx⟩ => inContract_of_exec_next hx, exec_of_inContract⟩

/-! ### The configurations reset refuses -/

theorem resetBlock_refused_iff {p : Params} :
    resetBlock p = .refused (.outOfContract .badConfig) ↔ ¬ p.legal := by
  refine ⟨fun h hl => ?_, resetBlock_illegal⟩
  rw [resetBlock_legal hl] at h
  cases h

/-- Settles O7: reset refuses exactly the illegal parameters, and those break one of the bounds. -/
theorem resetRefusesExactlyBadConfigurations : Obligations.ResetRefusesExactlyBadConfigurations := by
  intro p
  rw [resetBlock_refused_iff]
  simp only [Params.legal, CfgIn.legal, not_and_or, not_le]
  tauto

/-! ### The reasons of refused commands -/

/-- A command without slot checks its operand only, and no such command accepts a pattern that encodes no Num, whatever
the capacity (30_encoding.md R76). -/
theorem exec_notNum_of_slotless {i : Instr} {s : State} (hslot : i.slot? = none) (hd : s.din = .notNum) :
    exec i s = .refused (.outOfContract .badNum) := by
  have hrefused (r : RefusalReason) (k : Num → Outcome) :
      withOperand (positiveOperand r s.din) k = .refused (.outOfContract .badNum) := by rw [hd]; rfl
  cases i with
  | sample | readVoice => cases hslot
  | advance => exact hrefused .badDelta _
  | noteOff | noteOn => exact hrefused .badFrequency _

/-- A slot outside the file is refused before `DIN` is read (60_exceptions.md R185). -/
theorem execSample_of_ge {s : State} {j : Nat} (hj : s.cap ≤ j) :
    execSample j s = .refused (.outOfContract .slotRange) := by
  rw [execSample, slotOperand_of_ge hj, withOperand_error]

theorem execReadVoice_of_ge {s : State} {j : Nat} (hj : s.cap ≤ j) :
    execReadVoice j s = .refused (.outOfContract .slotRange) := by
  rw [execReadVoice, slotOperand_of_ge hj, withOperand_error]

/-- Settles O18: each clause is the first check its operand fails. -/
theorem refusalReasonsOfCommands : Obligations.RefusalReasonsOfCommands := by
  intro s
  refine ⟨?notes, ⟨exec_notNum_of_slotless rfl, fun _ => execAdvance_nonpos⟩,
    fun j hj => ⟨execSample_of_ge hj, execReadVoice_of_ge hj⟩, fun j hj hd => exec_notNum hd hj (by simp)⟩
  case notes =>
    simp only [List.forall_mem_cons, List.not_mem_nil, false_implies, implies_true, and_true]
    exact ⟨⟨exec_notNum_of_slotless rfl, fun _ => execNoteOn_nonpos⟩,
      ⟨exec_notNum_of_slotless rfl, fun _ => execNoteOff_nonpos⟩⟩

end Sys2Proof.Machine

/-! ## Reset and hazards

The wait between commands, the frequency SAMPLE never reads, and the orders of commands within a frame
(70_reset_and_hazards.md). -/

namespace Sys2Proof.Machine

/-! ### The wait -/

theorem step_idle {s : State} (hr : s.refused = none) (hp : s.pending = []) : step s = .next (idle s) := by
  simp [step, nextInput, hr, hp]

/-- Settles O12: the step is the wait, which clears the result ports. -/
theorem stepWaitsWithoutInput : Obligations.StepWaitsWithoutInput :=
  fun _ => step_idle

/-! ### Two runs that differ in the frequencies -/

/-- The same slot, bound to the frequency that `h` gives for its own. -/
def Slot.relabel (h : Num → Num) (v : Slot) : Slot := { v with freq := h v.freq }

/-- The same state with every slot's frequency changed by `h`. -/
def State.relabel (h : Num → Num) (s : State) : State := { s with slots := s.slots.map (Slot.relabel h) }

theorem State.cap_relabel (h : Num → Num) (s : State) : (s.relabel h).cap = s.cap := List.length_map _

theorem State.V_relabel (h : Num → Num) {s : State} {j : Nat} (hj : j < s.cap) :
    (s.relabel h).V j = (s.V j).relabel h := State.V_map _ hj

/-- Writing a slot's phase commutes with the change of the frequencies. -/
theorem State.relabel_setSlot_phase (h : Num → Num) (s : State) (j : Nat) (v : Slot) (ph : Phase) :
    (s.setSlot j { v with phase := ph }).relabel h = (s.relabel h).setSlot j { v.relabel h with phase := ph } :=
  congrArg (fun l => { s with slots := l }) List.map_set

theorem State.relabel_emit (h : Num → Num) (s : State) (r : Result) : (s.emit r).relabel h = (s.relabel h).emit r := rfl

/-- The envelope reads no frequency (10_state.md R32). -/
theorem envelope_relabel (h : Num → Num) (s : State) (v : Slot) (x : Num) :
    envelope (s.relabel h) (v.relabel h) x = envelope s v x := rfl

/-- SAMPLE commutes with a change of the frequencies, its refusals too. -/
theorem execSample_relabel (h : Num → Num) (j : Nat) (s : State) :
    execSample j (s.relabel h) = mapNext (State.relabel h) (execSample j s) := by
  by_cases hj : j < s.cap
  · have hj' : j < (s.relabel h).cap := hj.trans_eq (s.cap_relabel h).symm
    rw [execSample, execSample, slotOperand_of_lt hj', slotOperand_of_lt hj, withOperand_ok, withOperand_ok,
      State.V_relabel h hj]
    refine withOperand_mapNext fun x => ?_
    rw [envelope_relabel, mapNext, State.relabel_emit, State.relabel_setSlot_phase]
  · have hge := not_lt.1 hj
    rw [execSample_of_ge (s := s.relabel h) (by rwa [State.cap_relabel]), execSample_of_ge hge, mapNext]

/-- Settles O37: the slot check, the envelope and the write of the phase do not read the frequency. -/
theorem sampleNeverReadsTheFrequency : Obligations.SampleNeverReadsTheFrequency :=
  fun s j h => execSample_relabel h j s

/-! ### Repeated SAMPLEs of one slot -/

/-- The block after the host's SAMPLE of slot `j` with the raw sample `x`, which left the slot in phase `ph` and gave
`y`. -/
def State.sampled (s : State) (j : Nat) (x : Num) (ph : Phase) (y : Num) : State :=
  ((s.present (encode (.sample j)) (.num x) s.pending).setSlot j { s.V j with phase := ph }).emit (.dout y)

theorem State.cap_sampled (s : State) (j : Nat) (x : Num) (ph : Phase) (y : Num) :
    (s.sampled j x ph y).cap = s.cap := by
  simp [State.sampled]

theorem State.V_sampled_self {s : State} {j : Nat} (hj : j < s.cap) (x : Num) (ph : Phase) (y : Num) :
    (s.sampled j x ph y).V j = { s.V j with phase := ph } :=
  State.V_setSlot_self (s := s.present _ _ _) hj _

/-- Of two SAMPLEs of one slot the second alone shows. -/
theorem State.sampled_sampled {s : State} {j : Nat} (hj : j < s.cap) (x : Num) (ph ph' : Phase) (y y' : Num) :
    (s.sampled j x ph y).sampled j x ph' y' = s.sampled j x ph' y' := by
  rw [State.sampled, State.V_sampled_self hj]
  simp [State.sampled, State.present, State.setSlot, State.emit]

/-- The host's SAMPLE, once its branch of the envelope is known. -/
theorem applyInput_sample_of_envelope {s : State} {j : Nat} {x y : Num} {ph : Phase} (hr : s.refused = none)
    (hn : s.cap ≤ 256) (hj : j < s.cap) (he : envelope s (s.V j) x = (ph, y)) :
    applyInput (input (.sample j) x) s = .next (s.sampled j x ph y) := by
  rw [applyInput_sample hr hn hj, he, State.sampled]

/-- SAMPLE of the slot just sampled goes on from the phase that left. -/
theorem applyInput_sample_again {s : State} {j : Nat} {x y y' : Num} {ph ph' : Phase} (hr : s.refused = none)
    (hn : s.cap ≤ 256) (hj : j < s.cap) (he : envelope s { s.V j with phase := ph } x = (ph', y')) :
    applyInput (input (.sample j) x) (s.sampled j x ph y) = .next (s.sampled j x ph' y') := by
  have hcap := s.cap_sampled j x ph y
  have henv : envelope (s.sampled j x ph y) ((s.sampled j x ph y).V j) x = (ph', y') := by
    rw [State.V_sampled_self hj]
    exact he
  rw [applyInput_sample_of_envelope (s := s.sampled j x ph y) hr (hcap.trans_le hn) (hj.trans_eq hcap.symm) henv,
    State.sampled_sampled hj]

/-- Settles O49: the first SAMPLE finds the ramp over and enters Decay, the second leaves Decay, and the third is in
Sustain. -/
theorem repeatedSamplesRunThroughDecay : Obligations.RepeatedSamplesRunThroughDecay := by
  intro s j x hr hn hj hc hattack hover
  have henter := applyInput_sample_of_envelope hr hn hj
    (envelope_attack_over x hattack hc fun hramp => hover.not_gt hramp.2)
  have hleave := applyInput_sample_again (y := x) hr hn hj
    (envelope_decay x (v := { s.V j with phase := .decay }) rfl hc)
  have hstay := applyInput_sample_again (y := x) hr hn hj
    (envelope_sustain (s := s) x (v := { s.V j with phase := .sustain }) rfl)
  exact ⟨_, runInputs_cons henter (runInputs_cons hleave (runInputs_cons hstay rfl)), rfl⟩

/-! ### A slot on its attack ramp -/

/-- The block `t` takes commands, with `ramp` in `CFG_ATTACK`, and its slot `j` has been in Attack for the time `e`
(41_envelope.md R143). -/
structure State.Ramping (t : State) (j : Nat) (e ramp : Num) : Prop where
  unmarked : t.refused = none
  capacity : t.cap ≤ 256
  slot     : j < t.cap
  phase    : (t.V j).phase = .attack
  elapsed  : (t.V j).elapsed = e
  duration : t.cfgAttack = ramp

/-- A command that leaves the slot in Attack leaves it on the ramp, at the time its slot then holds: no command sets the
mark or writes `N` or `CFG_ATTACK`. -/
theorem ramping_of_applyInput {i : Instr} {v e : Num} {s t : State} {j : Nat} (hr : s.refused = none)
    (hn : s.cap ≤ 256) (hj : j < s.cap) (hi : i.wf s.cap = true) (h : applyInput (input i v) s = .next t)
    (hphase : (t.V j).phase = .attack) (helapsed : (t.V j).elapsed = e) : t.Ramping j e s.cfgAttack := by
  rw [applyInput_input hr hi] at h
  have hcap := exec_next_cap h
  obtain ⟨hattack, -, -, -⟩ := exec_next_cfg h
  exact
    { unmarked := (exec_next_refused h).trans hr
      capacity := hcap.trans_le hn
      slot     := hj.trans_eq hcap.symm
      phase    := hphase
      elapsed  := helapsed
      duration := hattack }

/-- NOTE_ON puts its target at the start of the ramp (40_voice_pool.md R103). -/
theorem ramping_of_noteOn {s : State} {f : Num} {j : Nat} (hr : s.refused = none) (hn : s.cap ≤ 256) (hf : 0 < f)
    (hj : noteOnTarget s f = some j) : ∃ t, applyInput (input .noteOn f) s = .next t ∧ t.out = .nothing ∧
      t.Ramping j 0 s.cfgAttack := by
  obtain ⟨hjc, -⟩ := noteOnTarget_eq_some.1 hj
  have hstep := (applyInput_input (i := .noteOn) hr rfl f).trans
    (execNoteOn_of_target (s := s.present (encode .noteOn) (.num f) s.pending) rfl hf hj)
  have hself := State.V_setSlot_self (s := s.present (encode .noteOn) (.num f) s.pending) hjc (Slot.started f)
  exact ⟨_, hstep, rfl, ramping_of_applyInput hr hn hjc rfl hstep (congrArg Slot.phase hself)
    (congrArg Slot.elapsed hself)⟩

/-- ADVANCE moves the slot along the ramp by its time step (40_voice_pool.md R112). -/
theorem State.Ramping.advance {t : State} {j : Nat} {e d ramp : Num} (h : t.Ramping j e ramp) (hd : 0 < d) :
    ∃ u, applyInput (input .advance d) t = .next u ∧ u.out = .nothing ∧ u.Ramping j (e + d) ramp := by
  obtain ⟨hr, hn, hj, hphase, rfl, rfl⟩ := h
  obtain ⟨u, hx, hframe, -, hslots⟩ :=
    execAdvance_completes (s := t.present (encode .advance) (.num d) t.pending) rfl hd
  have hstep := (applyInput_input (i := .advance) hr rfl d).trans hx
  have hself : u.V j = { t.V j with elapsed := (t.V j).elapsed + d } :=
    (hslots j hj).trans (Slot.advanced_sounding (by simp [hphase]))
  exact ⟨u, hstep, by rw [hframe], ramping_of_applyInput hr hn hj rfl hstep
    (by rw [hself, hphase]) (by rw [hself])⟩

/-- SAMPLE on the ramp (41_envelope.md R143). -/
theorem State.Ramping.sample {t : State} {j : Nat} {e ramp : Num} (h : t.Ramping j e ramp) (hpos : 0 < ramp)
    (he : e < ramp) (x : Num) : ∃ u, runInputs [input (.sample j) x] t = .next (u, [.dout (x * (e / ramp))]) := by
  obtain ⟨hr, hn, hj, hphase, rfl, rfl⟩ := h
  exact ⟨_, runInputs_cons
    (applyInput_sample_of_envelope hr hn hj (envelope_attack_ramp x hphase ⟨hpos, he⟩)) rfl⟩

/-- Settles O50: NOTE_ON takes the slot bound to `f` and puts it at the start of the ramp, where SAMPLE gives 0; after
ADVANCE it is at `d`. -/
theorem advanceBeforeTheFirstSampleIsOneStepLate : Obligations.AdvanceBeforeTheFirstSampleIsOneStepLate := by
  intro s j f d x hinv hr hj hf hfreq hd hramp
  have hpos := hd.trans hramp
  have htarget := noteOnTarget_of_uniqueFreq hinv.unique hf hj hfreq
  obtain ⟨t, hon, hout, hstart⟩ := ramping_of_noteOn hr hinv.cap.2 hf htarget
  constructor
  · obtain ⟨u, hrun⟩ := hstart.sample hpos hpos x
    rw [zero_div, mul_zero] at hrun
    exact ⟨u, runInputs_cons_of_out hon hout hrun⟩
  · obtain ⟨t', hadvance, hout', hlate⟩ := hstart.advance hd
    rw [zero_add] at hlate
    obtain ⟨u, hrun⟩ := hlate.sample hpos hramp x
    exact ⟨u, runInputs_cons_of_out hon hout (runInputs_cons_of_out hadvance hout' hrun)⟩

end Sys2Proof.Machine
